-- ==== Sys2Proof/Word.lean ====
section
/-! DEFINITION. The words of the engine and the closed sets of names its rules speak of.

Fixed widths (00_scope section 4): a grid element is 64 bits, a register and a command word 32 bits, a host address
26 bits. The spec numbers the bits of each, so each is a bit vector. -/

namespace Sys2Proof

/-- A control register or a command word (10_state R24 to R28, 30_encoding R70). -/
abbrev Word32 := BitVec 32

/-- The 64-bit word every access of the address map moves (20_memory R51). -/
abbrev Word64 := BitVec 64

/-- A binary64 value in its interchange word, bit 63 the sign (43_numerics R125). -/
abbrev F64 := BitVec 64

/-- A 26-bit word address (20_memory R50). -/
abbrev Addr := BitVec 26

/-- One byte, for the platform's view of a word only (20_memory R52). -/
abbrev Byte := BitVec 8

/-- The two grid banks (10_state R21). -/
inductive Bank where
  | ga
  | gb
deriving DecidableEq, Repr, Inhabited

/-- The half-way rounding rule of the quantizer, fixed per instance (00_scope R9). -/
inductive RoundMode where
  | halfAway
  | halfEven
deriving DecidableEq, Repr, Inhabited

/-- The four causes of 60_exceptions R151. -/
inductive Cause where
  /-- `E_OP`: the OP field is not 1, 2 or 3. -/
  | op
  /-- `E_RSV`: bits 26:24 of the command word are not 0. -/
  | rsv
  /-- `E_DIM`: N or M is 0 or greater than MAXDIM. -/
  | dim
  /-- `E_ADDR`: a host access to a hole of the address map. -/
  | addr
deriving DecidableEq, Repr

end Sys2Proof
end

