-- ==== Sys2Proof/Config.lean ====
section
/-! DEFINITION. What an implementation fixes, and the values the spec leaves open.

`Config` is the plain-data part of the configuration record of 00_scope R7 to R9; a state carries one (log entry 1), so
a statement about every state holds for every instance. The function-valued and real-valued open parameters (COS, TOL,
the choice of a NaN's bits) and the platform's base address are opaque constants: nothing in Lean can evaluate them. -/

namespace Sys2Proof

/-- The instance's constants (00_scope R7, R8, R9; 10_state R34: they never change during a run). -/
structure Config where
  /-- `MAXDIM` (R7). -/
  maxDim : Nat
  /-- `QTABLE`, eight rows of eight entries, each stored as an unsigned 16-bit number (R8, 10_state R23). -/
  qtable : Vector (Vector (BitVec 16) 8) 8
  /-- `ROUND_MODE` (R9). -/
  roundMode : RoundMode
deriving DecidableEq, Repr

/-- The entry that 41_quant R104 assigns to cell (i, j): row i mod 8, column j mod 8 of the table. For i, j < 8 it is
`QROM[i][j]`. -/
def Config.entry (c : Config) (i j : Nat) : BitVec 16 :=
  (c.qtable[i % 8]'(Nat.mod_lt i (by decide)))[j % 8]'(Nat.mod_lt j (by decide))

/-- What 00_scope R7 and R8 require of every instance, a test instance included: 16 ≤ MAXDIM ≤ 4095 and every table
entry at least 1. -/
abbrev Config.Valid (c : Config) : Prop :=
  16 ≤ c.maxDim ∧ c.maxDim ≤ 4095 ∧ ∀ i, i < 8 → ∀ j, j < 8 → 1 ≤ (c.entry i j).toNat

/-- What R8 requires of the hardware as shipped besides: every table entry at least 10. -/
abbrev Config.Shipped (c : Config) : Prop :=
  c.Valid ∧ ∀ i, i < 8 → ∀ j, j < 8 → 10 ≤ (c.entry i j).toNat

/-- The default table that 10_state R23 prints. PRESUMED (log entry 3): the spec itself marks the 64 values as general
knowledge. -/
def Config.defaultTable : Vector (Vector (BitVec 16) 8) 8 :=
  #v[#v[16, 11, 10, 16, 24, 40, 51, 61],
     #v[12, 12, 14, 19, 26, 58, 60, 55],
     #v[14, 13, 16, 24, 40, 57, 69, 56],
     #v[14, 17, 22, 29, 51, 87, 80, 62],
     #v[18, 22, 37, 56, 68, 109, 103, 77],
     #v[24, 35, 55, 64, 81, 104, 113, 92],
     #v[49, 64, 78, 87, 103, 121, 120, 101],
     #v[72, 92, 95, 98, 112, 100, 103, 99]]

/-- The configuration that `State.reset` carries: MAXDIM = 16 (DESIGN CHOICE, log entry 2), the default table, and
`HALF_AWAY`, the spec's default (00_scope R9, log entry 4). -/
def Config.initial : Config :=
  { maxDim := 16, qtable := Config.defaultTable, roundMode := .halfAway }

/-- The open cosine routine `COS` before its three stated properties are imposed (43_numerics R130; log entry 9). -/
opaque Config.cosDraw : F64 → F64

/-- The open parameter `TOL` (00_scope R11, 43_numerics R137). One number for every size and every window: DESIGN CHOICE
(log entry 17), since R11 gives one difference per element and R137 says that it grows with N·M and with the magnitude of
the samples. No step reads it. -/
opaque Config.tol : Rat

/-- The bits of a NaN that `FDCT` (`inverse = false`) or `IDCT` (`inverse = true`) leaves in a result cell: a free
value (43_numerics R133; 93 U2; log entry 11). It depends on the input grid and the cell, as R139 and R140 say. -/
opaque Config.transformNaNDraw (inverse : Bool) (n m : Nat) (window : List (List F64)) (row col : Nat) : F64

/-- The bits of a NaN that `QUANT` leaves in a result cell: a free value that depends on the source cell and its table
entry only (43_numerics R133, R139; log entry 11). -/
opaque Config.quantNaNDraw (entry : BitVec 16) (c : F64) : F64

/-- The open parameter `PLATFORM_BASE` (92_eei_decisions D6): where a byte-addressed platform places the map. Only
Sys2Proof/Machine/Platform.lean reads it (log entry 18). -/
opaque Config.platformBase : Nat

end Sys2Proof
end

