-- ==== Sys2Proof/Machine/Binary64.lean ====
section
/-! DEFINITION. IEEE 754 binary64 arithmetic (43_numerics R125 to R129, R133 to R136).

A finite value is an integer number of units of 2^-1074, the smallest subnormal. Each operation computes the exact
result as a fraction of such units and rounds it once, to nearest, ties to even. `roundMag` is the one place that
rounds. -/

namespace Sys2Proof.Machine

/-- One, in units of 2^-1074. -/
def unitsPerOne : Nat := 2 ^ 1074

/-- +0.0 -/
def fzero : F64 := 0x0000000000000000#64

/-- 1.0 -/
def fone : F64 := 0x3FF0000000000000#64

/-- 2.0 -/
def ftwo : F64 := 0x4000000000000000#64

/-- Exponent and fraction of +Inf, as a number. -/
def infMag : Nat := 0x7FF0000000000000

/-- The NaN the datapath carries inside an operation. Its bits are never seen: a result cell that is a NaN gets the bits
of a free value (43_numerics R133; log entry 11). -/
def qnan : F64 := 0x7FF8000000000000#64

/-- The sign bit, true for minus (R125). -/
def fsign (w : F64) : Bool := w.msb

/-- Exponent and fraction together: bits 62:0 (R125). -/
def fmag (w : F64) : Nat := w.toNat % 2 ^ 63

/-- The word of a sign and bits 62:0. -/
def pack (s : Bool) (g : Nat) : F64 := BitVec.ofNat 64 ((if s then 2 ^ 63 else 0) + g)

/-- Exponent 2047, fraction not 0 (R125). -/
def isNaN (w : F64) : Bool := decide (infMag < fmag w)

/-- ±Inf (R125). -/
def isInf (w : F64) : Bool := fmag w == infMag

/-- ±0.0 (R125). -/
def isZero (w : F64) : Bool := fmag w == 0

/-- Neither a NaN nor ±Inf. -/
def isFinite (w : F64) : Bool := decide (fmag w < infMag)

/-- The magnitude of a finite value in units of 2^-1074, from bits 62:0: fraction units for a subnormal, (2^52 + f)
shifted by e - 1 for a normal value (R125). -/
def magUnits (g : Nat) : Nat :=
  if g < 2 ^ 52 then g else (2 ^ 52 + g % 2 ^ 52) * 2 ^ (g / 2 ^ 52 - 1)

/-- The magnitude of a finite value in units of 2^-1074. -/
def units (w : F64) : Nat := magUnits (fmag w)

/-- A finite value in units of 2^-1074, with its sign. -/
def signedUnits (w : F64) : Int := if fsign w then -(units w : Int) else (units w : Int)

/-- The fraction num/den of a unit, rounded once to the nearest magnitude, ties to the even fraction; a magnitude that
would exceed the largest finite value becomes Inf (R126); in the subnormal range the spacing is one unit (R134). The
answer is bits 62:0. -/
def roundMag (num den : Nat) : Nat :=
  let k := (num / den).log2 - 52
  let d := den * 2 ^ k
  let q := num / d
  let r := num % d
  min (k * 2 ^ 52 + (if 2 * r < d then q else if d < 2 * r then q + 1 else q + q % 2)) infMag

/-- Minus a value: the sign bit flipped. -/
def fneg (w : F64) : F64 := w ^^^ 0x8000000000000000#64

/-- An exact sum of x units, rounded; a zero sum is -0.0 only where both operands are negative (R126, R136). -/
def packSum (bothNegative : Bool) (x : Int) : F64 :=
  if x = 0 then pack bothNegative 0 else pack (decide (x < 0)) (roundMag x.natAbs 1)

/-- `a ⊕ b` (R126, R133, R134, R136). -/
def fadd (a b : F64) : F64 :=
  if isNaN a || isNaN b then qnan
  else if isInf a then (if isInf b && (fsign a != fsign b) then qnan else a)
  else if isInf b then b
  else packSum (fsign a && fsign b) (signedUnits a + signedUnits b)

/-- `a ⊖ b` (R126). -/
def fsub (a b : F64) : F64 := fadd a (fneg b)

/-- `a ⊗ b` (R126, R133, R134, R136). -/
def fmul (a b : F64) : F64 :=
  if isNaN a || isNaN b then qnan
  else if isInf a || isInf b then
    (if isZero a || isZero b then qnan else pack (fsign a != fsign b) infMag)
  else pack (fsign a != fsign b) (roundMag (units a * units b) unitsPerOne)

/-- `a ⊘ b` (R126, R133, R134, R136). A zero divisor does not occur (R135); there the IEEE default result stands
(PRESUMED, log entry 14). -/
def fdiv (a b : F64) : F64 :=
  if isNaN a || isNaN b then qnan
  else if isInf a then (if isInf b then qnan else pack (fsign a != fsign b) infMag)
  else if isInf b then pack (fsign a != fsign b) 0
  else if isZero b then (if isZero a then qnan else pack (fsign a != fsign b) infMag)
  else pack (fsign a != fsign b) (roundMag (units a * unitsPerOne) (units b))

/-- `cvt(n)` (R127): every integer the hardware converts is below 2^53, and then nothing is rounded. -/
def cvt (n : Nat) : F64 := pack false (roundMag (n * unitsPerOne) 1)

/-- The largest t below n + 2^bits with (t · 2^k)² ≤ x, when n is one: one bit of the root at a time. -/
def rootSearch (x k : Nat) : Nat → Nat → Nat
  | 0, n => n
  | bits + 1, n =>
    if ((n + 2 ^ bits) * 2 ^ k) ^ 2 ≤ x then rootSearch x k bits (n + 2 ^ bits) else rootSearch x k bits n

/-- The square root of x, rounded once to nearest, ties to even; x is in squared units. The answer is bits 62:0. -/
def rootMag (x : Nat) : Nat :=
  let k := x.log2 / 2 - 52
  let n := rootSearch x k 53 0
  let twiceMid := (2 * n + 1) * 2 ^ k
  min (k * 2 ^ 52 + (if 4 * x < twiceMid ^ 2 then n else if twiceMid ^ 2 < 4 * x then n + 1 else n + n % 2)) infMag

/-- `SQRT(a)` (R129). The spec needs it for finite a > 0 only; elsewhere the IEEE result stands (PRESUMED, log
entry 14). -/
def fsqrt (a : F64) : F64 :=
  if isNaN a then qnan
  else if isZero a then a
  else if fsign a then qnan
  else if isInf a then a
  else pack false (rootMag (units a * unitsPerOne))

end Sys2Proof.Machine
end

