-- ==== Sys2Proof/Machine/Numerics.lean ====
section
/-! DEFINITION. What the three operations share (43_numerics R128 to R133, R136, R139): the constant PI64, the open
cosine, the normalisation ALPHA, the cosine factor CK, the fixed-order accumulation, the rounding RND of the quantizer
and the free bits of a NaN result. -/

namespace Sys2Proof.Machine

/-- `PI64`, the binary64 value nearest π (R128). -/
def pi64 : F64 := 0x400921FB54442D18#64

/-- A value kept within [-1.0, 1.0]: anything else, a NaN included, becomes 1.0. -/
def withinUnit (r : F64) : F64 := if fmag r ≤ fmag fone then r else fone

/-- `COS` (R130): the open routine with its stated properties imposed. It is a function of its argument (item 1), 1.0 at
+0.0 (item 2) and within [-1.0, 1.0] on every finite argument (item 3); a NaN gives a NaN (R133); nothing else is known
of it (log entry 9). -/
def cosine (a : F64) : F64 :=
  if a = fzero then fone
  else if isNaN a then qnan
  else if isFinite a then withinUnit (Config.cosDraw a)
  else Config.cosDraw a

/-- `ALPHA(k, D)` (R131). -/
def alpha (k d : Nat) : F64 :=
  if k = 0 then fsqrt (fdiv fone (cvt d)) else fsqrt (fdiv ftwo (cvt d))

/-- `ARG(k, i, D)`, evaluated left to right (R132). -/
def arg (k i d : Nat) : F64 := fdiv (fmul (fmul pi64 (cvt k)) (cvt (2 * i + 1))) (cvt (2 * d))

/-- `CK(k, i, D)` of a datapath whose cosine is `cos` (R132). -/
def ck (cos : F64 → F64) (k i d : Nat) : F64 := cos (arg k i d)

/-- The sum of the terms of one result cell: from +0.0, first index outer, second inner, each ⊕ rounded on its own
(R136, R139). -/
def accumulate (n m : Nat) (term : Nat → Nat → F64) : F64 :=
  (List.range n).foldl (fun acc x => (List.range m).foldl (fun acc y => fadd acc (term x y)) acc) fzero

/-- The integer nearest num/den, the half-way case by the instance's mode (41_quant R103). -/
def roundHalf (mode : RoundMode) (num den : Nat) : Nat :=
  let n := num / den
  let f := num % den
  if 2 * f < den then n
  else if den < 2 * f then n + 1
  else
    match mode with
    | .halfAway => n + 1
    | .halfEven => n + n % 2

/-- `RND(q)` (41_quant R103): NaN to a NaN, ±Inf and ±0.0 unchanged, else the nearest integer with the sign of q. -/
def rnd (mode : RoundMode) (q : F64) : F64 :=
  if isNaN q then qnan
  else if isInf q || isZero q then q
  else pack (fsign q) (roundMag (roundHalf mode (units q) unitsPerOne * unitsPerOne) 1)

/-- "Some NaN": a free 64-bit draw restricted to the NaN patterns (R133; 93 U2). -/
def someNaN (draw : F64) : F64 := if isNaN draw then draw else qnan

/-- A result as it is stored: a NaN takes free bits, any other value stands (R133; log entry 11). -/
def storeResult (draw x : F64) : F64 := if isNaN x then someNaN draw else x

end Sys2Proof.Machine
end

