-- ==== Sys2Proof/Syntax.lean ====
section
/-! DEFINITION. The instruction set: the three commands of spec/opcode_table.json (30_encoding R72).

The operands are the fields of the command word as they stand (30_encoding R71): the source bank, N rows and M columns,
each dimension an unsigned unbiased 12-bit field. The destination is always the other bank, so it is no operand. -/

namespace Sys2Proof

inductive Instr where
  /-- `FDCT <bank>, N, M` (40_fdct R90). -/
  | fdct (src : Bank) (n m : BitVec 12)
  /-- `QUANT <bank>, N, M` (41_quant R100). -/
  | quant (src : Bank) (n m : BitVec 12)
  /-- `IDCT <bank>, N, M` (42_idct R115). -/
  | idct (src : Bank) (n m : BitVec 12)
deriving DecidableEq, Repr

end Sys2Proof
end

