-- ==== Sys2Proof/WellFormed.lean ====
section
/-! DEFINITION. Which commands are legal.

The type `Instr` already holds what the encoding can say (an operation of the map, a bank, two 12-bit fields). What is
left of 30_encoding R73 is the range of each dimension: 1 ≤ N ≤ MAXDIM and 1 ≤ M ≤ MAXDIM. -/

namespace Sys2Proof

/-- The number of rows field of a command. -/
def Instr.rows : Instr → BitVec 12
  | .fdct _ n _ => n
  | .quant _ n _ => n
  | .idct _ n _ => n

/-- The number of columns field of a command. -/
def Instr.cols : Instr → BitVec 12
  | .fdct _ _ m => m
  | .quant _ _ m => m
  | .idct _ _ m => m

/-- One dimension is in range for the instance (30_encoding R73). -/
abbrev dimInRange (maxDim : Nat) (d : BitVec 12) : Prop := 1 ≤ d.toNat ∧ d.toNat ≤ maxDim

/-- A command is well formed for an instance when both of its dimensions are in range (30_encoding R73). -/
abbrev Instr.WellFormed (c : Config) (i : Instr) : Prop :=
  dimInRange c.maxDim i.rows ∧ dimInRange c.maxDim i.cols

end Sys2Proof
end

