-- ==== Sys2Proof/Decode.lean ====
section
/-! DEFINITION. The command word: its fields, the decoder, the causes of a refusal, the encoder (30_encoding R70 to
R73, R78).

The decoder is total on 32-bit words. It answers an instruction exactly when the word matches a row of the opcode map
under the mask 0xF7000000 (R72); the range of the dimensions depends on MAXDIM and is judged where the command runs, in
`Machine.runCommand` (log entry 12). -/

namespace Sys2Proof

/-- `OP`, bits 31:28. -/
def opField (w : Word32) : BitVec 4 := w.extractLsb' 28 4

/-- `SRC`, bit 27. -/
def srcField (w : Word32) : BitVec 1 := w.extractLsb' 27 1

/-- `ZERO`, bits 26:24. -/
def zeroField (w : Word32) : BitVec 3 := w.extractLsb' 24 3

/-- `N`, bits 23:12. -/
def nField (w : Word32) : BitVec 12 := w.extractLsb' 12 12

/-- `M`, bits 11:0. -/
def mField (w : Word32) : BitVec 12 := w.extractLsb' 0 12

/-- The source bank of a `SRC` bit: 0 is `GA`, 1 is `GB` (R71). -/
def bankOfBit (b : BitVec 1) : Bank := if b = 0#1 then .ga else .gb

/-- The `SRC` bit of a source bank (R70). -/
def bitOfBank : Bank → BitVec 1
  | .ga => 0#1
  | .gb => 1#1

/-- R72: the instruction a command word stands for, none where `OP` or `ZERO` is not as the opcode map has it. -/
def decode (w : Word32) : Option Instr :=
  if zeroField w = 0#3 then
    match (opField w).toNat with
    | 1 => some (.fdct (bankOfBit (srcField w)) (nField w) (mField w))
    | 2 => some (.quant (bankOfBit (srcField w)) (nField w) (mField w))
    | 3 => some (.idct (bankOfBit (srcField w)) (nField w) (mField w))
    | _ => none
  else none

/-- A dimension outside 1..MAXDIM (R73, R78). -/
def dimBad (maxDim : Nat) (d : Nat) : Bool := d == 0 || decide (maxDim < d)

/-- R78: the causes a command word is refused for, all that apply; the empty list for a legal word. -/
def causes (maxDim : Nat) (w : Word32) : List Cause :=
  (if (opField w).toNat = 1 ∨ (opField w).toNat = 2 ∨ (opField w).toNat = 3 then [] else [Cause.op])
    ++ (if zeroField w = 0#3 then [] else [Cause.rsv])
    ++ (if dimBad maxDim (nField w).toNat || dimBad maxDim (mField w).toNat then [Cause.dim] else [])

/-- The command word with the given fields and `ZERO` = 0 (R70). -/
def commandWord (op : BitVec 4) (src : Bank) (n m : BitVec 12) : Word32 :=
  op ++ bitOfBank src ++ 0#3 ++ n ++ m

/-- The word of an instruction (R70, R72). -/
def encode : Instr → Word32
  | .fdct src n m => commandWord 1#4 src n m
  | .quant src n m => commandWord 2#4 src n m
  | .idct src n m => commandWord 3#4 src n m

/-- The decoder on an instruction numbered as spec/opcode_table.json numbers it: one 32-bit word, bits above `nbits`
zero. -/
def decodeTableWord (nbits w : Nat) : Option Instr := decode (BitVec.ofNat 32 (w % 2 ^ nbits))

end Sys2Proof
end

