-- ==== Sys2Proof/Machine/State.lean ====
section
/-! DEFINITION. The state of the engine and of its host port, the reasons a step can stop, and the state after reset.

10_state R20 lists the whole architectural state: the two grid banks and the registers STATUS, ERR, LASTCMD and CAP
(a constant, computed from `config`); CMD holds nothing. Beside them stand the instance's constants (log entry 1), the
transactions the host has yet to issue (log entry 5) and the words its reads have returned (log entry 6). -/

namespace Sys2Proof.Machine

/-- A host transaction (20_memory section 3; 70_reset_and_hazards R170). -/
inductive Transaction where
  /-- `HRD(a)`: read the word at `a`. -/
  | hrd (a : Addr)
  /-- `HWR(a, v)`: write the word `v` at `a`. -/
  | hwr (a : Addr) (v : Word64)
  /-- The reset event. -/
  | reset
deriving DecidableEq, Repr

/-- The written cells of one bank as (row · 4096 + column, value), keys strictly rising; a cell that is not listed is
`UNDEF` (10_state R22; 20_memory R50 for the row stride; log entry 8). -/
abbrev Grid := List (Nat × F64)

/-- The two grid banks (10_state R21). -/
structure Memory where
  ga : Grid
  gb : Grid
deriving DecidableEq, Repr

/-- The state. Every field is plain data. -/
structure State where
  /-- MAXDIM, QTABLE (which is `QROM`) and ROUND_MODE of this instance; no step writes it (10_state R23, R28, R34). -/
  config : Config
  /-- `GA` and `GB` (R21). -/
  mem : Memory
  /-- `STATUS` (R25). -/
  status : Word32
  /-- `ERR` (R26). -/
  err : Word32
  /-- `LASTCMD` (R27). -/
  lastCmd : Word32
  /-- The transactions the host has yet to issue, next one first (20_memory R61). -/
  pending : List Transaction
  /-- The words `HRD` has returned, oldest first (20_memory R54 to R57). -/
  answers : List Word64
deriving DecidableEq, Repr

/-- Why a run goes wrong. -/
inductive Fault where
  /-- Raised by the commands FDCT, QUANT and IDCT when their source window holds a cell that is `UNDEF`; the first such
  cell in row-major order (70 R172; 93 U1). Safe: the hardware goes on with an unspecified word. -/
  | undefSource (b : Bank) (r c : Nat)
  /-- Raised by `HRD` of a cell that is `UNDEF` (20_memory R55; 70 R172; 93 U1). Safe: the hardware returns an
  unspecified word. -/
  | undefRead (b : Bank) (r c : Nat)
deriving DecidableEq, Repr

/-- What the model gives no meaning. No step of this model answers with a refusal: a malformed command is a NEXT state
(60_exceptions R155). -/
inductive Refusal where
  /-- An instruction whose meaning is not written; raised by no arm of `exec` of this model. Safe. -/
  | notModelled (mnemonic : String)
  /-- A byte address of a byte-addressed platform that is no multiple of 8 or lies outside the map; raised only by the
  translation in Machine/Platform.lean, never by a step (93 U14). Safe. -/
  | platformByteAddress
deriving DecidableEq, Repr

/-- The outcome of a step of this machine. -/
abbrev Out := Host.Outcome State Fault Refusal

/-- The state right after reset of an instance with the constants `c`: every row of the table of 10_state R33, and a
host that has issued nothing. -/
def State.resetOf (c : Config) : State :=
  { config := c, mem := { ga := [], gb := [] }, status := 0, err := 0, lastCmd := 0, pending := [], answers := [] }

/-- The state right after reset of the instance that `Config.initial` names (10_state R33; log entries 2, 3, 4). -/
def State.reset : State := State.resetOf Config.initial

end Sys2Proof.Machine
end

