-- ==== Sys2Proof/Machine/Flags.lean ====
section
/-! DEFINITION. The two bits of STATUS, the four sticky bits of ERR, and the constant CAP: the only flags of the engine
(10_state R25, R26, R28, R31). No operation sets a flag from its numeric result (43_numerics R135). -/

namespace Sys2Proof.Machine

/-- STATUS after an accepted command: DONE = 1, REFUSED = 0 (30_encoding R78). -/
def statusDone : Word32 := 0x00000001#32

/-- STATUS after a refusal: REFUSED = 1, DONE = 0 (60_exceptions R155). -/
def statusRefused : Word32 := 0x00000002#32

/-- The bit of ERR that records a cause (60_exceptions R151). -/
def causeBit : Cause → Word32
  | .op => 0x1#32
  | .rsv => 0x2#32
  | .dim => 0x4#32
  | .addr => 0x8#32

/-- ERR with the bits of the given causes set as well; a bit that is 1 stays 1 (10_state R26). -/
def errWith (cs : List Cause) (err : Word32) : Word32 := cs.foldl (fun e c => e ||| causeBit c) err

/-- `CAP.RMODE` (10_state R28). -/
def rmodeBit : RoundMode → BitVec 1
  | .halfAway => 0#1
  | .halfEven => 1#1

/-- The constant CAP: bits 11:0 MAXDIM, bit 16 RMODE, every other bit 0 (10_state R28). -/
def capWord (c : Config) : Word32 := 0#15 ++ rmodeBit c.roundMode ++ 0#4 ++ BitVec.ofNat 12 c.maxDim

end Sys2Proof.Machine
end

