-- ==== Sys2Proof/Machine/Operands.lean ====
section
/-! DEFINITION. The operands of a command (30_encoding R71) and the one addressing mode of a host transaction, the
absolute word address (20_memory R50 and section 3). -/

namespace Sys2Proof.Machine

/-- The destination bank of a source bank: the other one, always (30_encoding R71). -/
def otherBank : Bank → Bank
  | .ga => .gb
  | .gb => .ga

/-- Both dimensions of a command are legal for the instance (30_encoding R73). -/
def dimsLegal (maxDim n m : Nat) : Bool := !(dimBad maxDim n || dimBad maxDim m)

/-- The place of cell (r, c) within its bank: r · 4096 + c, whatever MAXDIM is (20_memory R50). -/
def cellKey (r c : Nat) : Nat := r * 4096 + c

/-- The cells of an N×M window, row by row. -/
def windowCells (n m : Nat) : List (Nat × Nat) :=
  (List.range n).flatMap fun r => (List.range m).map fun c => (r, c)

/-- A grid handed to an operation: its rows, each a list of cells. -/
abbrev Window := List (List F64)

/-- `S[r][c]` of such a grid. Outside the window it is +0.0, which no operation reads. -/
def cellOf (S : Window) (r c : Nat) : F64 := (S.getD r []).getD c 0#64

/-- `SPACE`, bits 25:24 of a word address. -/
def spaceField (a : Addr) : BitVec 2 := a.extractLsb' 24 2

/-- `ROW`, bits 23:12 of a word address. -/
def rowField (a : Addr) : BitVec 12 := a.extractLsb' 12 12

/-- `COL`, bits 11:0 of a word address. -/
def colField (a : Addr) : BitVec 12 := a.extractLsb' 0 12

/-- The registers, in the order of their index (10_state R24 to R28). -/
inductive RegName where
  | cmd
  | status
  | err
  | lastCmd
  | cap
deriving DecidableEq, Repr

/-- What stands at a word address (20_memory R50, R57). -/
inductive Place where
  | reg (r : RegName)
  | cell (b : Bank) (r c : Nat)
  | table (r c : Nat)
  | hole
deriving DecidableEq, Repr

/-- The register of an index, none above 4 (10_state section 4). -/
def regOfIndex : Nat → Option RegName
  | 0 => some .cmd
  | 1 => some .status
  | 2 => some .err
  | 3 => some .lastCmd
  | 4 => some .cap
  | _ => none

/-- The place in the grid spaces: a cell below MAXDIM in both indices, else a hole (20_memory R50, R57). -/
def gridPlace (maxDim : Nat) (b : Bank) (r c : Nat) : Place :=
  if r < maxDim ∧ c < maxDim then .cell b r c else .hole

/-- The address map (20_memory R50, R57). -/
def place (maxDim : Nat) (a : Addr) : Place :=
  let r := (rowField a).toNat
  let c := (colField a).toNat
  match (spaceField a).toNat with
  | 0 =>
    if r = 0 then
      match regOfIndex c with
      | some name => .reg name
      | none => .hole
    else .hole
  | 1 => gridPlace maxDim .ga r c
  | 2 => gridPlace maxDim .gb r c
  | _ => if r < 8 ∧ c < 8 then .table r c else .hole

/-- The number of a bank's address space (20_memory R50). -/
def bankSpace : Bank → BitVec 2
  | .ga => 1#2
  | .gb => 2#2

/-- The word address SPACE · 2^24 + r · 2^12 + c (20_memory R50). -/
def wordAddr (space : BitVec 2) (r c : BitVec 12) : Addr := space ++ r ++ c

/-- The address of the command register, index 0 of the register space (10_state R24). -/
def cmdAddr : Addr := 0#26

end Sys2Proof.Machine
end

