-- ==== Sys2Proof/Machine/Ops.lean ====
section
/-! DEFINITION. The named operations over the banks and the registers: one cell, one window, the refusal of a command
(the engine's only exception-like event, 60_exceptions R150, R155), its acceptance, the reset event, and the frame that
the three commands share. -/

namespace Sys2Proof.Machine

/-- The content of a bank at a key, none where nothing has written it (`UNDEF`). -/
def Grid.get : Grid → Nat → Option F64
  | [], _ => none
  | (k, v) :: g, j => if j = k then some v else Grid.get g j

/-- A write of one key; the keys stay strictly rising. -/
def Grid.set : Grid → Nat → F64 → Grid
  | [], j, x => [(j, x)]
  | (k, v) :: g, j, x =>
    if j < k then (j, x) :: (k, v) :: g
    else if j = k then (j, x) :: g
    else (k, v) :: Grid.set g j x

/-- The canonical form of a bank: keys strictly rising. An unlisted key reads as no value, so no entry can equal it. -/
abbrev Grid.wf (g : Grid) : Prop := (g.map Prod.fst).Pairwise (· < ·)

/-- The canonical form of the memory. -/
abbrev Memory.wf (m : Memory) : Prop := Grid.wf m.ga ∧ Grid.wf m.gb

/-- The grid of a bank. -/
def Memory.bank (m : Memory) : Bank → Grid
  | .ga => m.ga
  | .gb => m.gb

/-- The memory with one bank's grid replaced. -/
def Memory.withBank (m : Memory) (b : Bank) (g : Grid) : Memory :=
  match b with
  | .ga => { m with ga := g }
  | .gb => { m with gb := g }

/-- `G[b][r][c]` (00_scope R13): the cell's value, none for `UNDEF`. -/
def Memory.read (m : Memory) (b : Bank) (r c : Nat) : Option F64 := Grid.get (m.bank b) (cellKey r c)

/-- `G[b][r][c] <- v` (00_scope R13). -/
def Memory.write (m : Memory) (b : Bank) (r c : Nat) (v : F64) : Memory :=
  m.withBank b (Grid.set (m.bank b) (cellKey r c) v)

/-- `G[b][r][c]` of a state. -/
def State.cell (s : State) (b : Bank) (r c : Nat) : Option F64 := s.mem.read b r c

/-- `G[b][r][c] <- v` of a state. -/
def State.setCell (s : State) (b : Bank) (r c : Nat) (v : F64) : State := { s with mem := s.mem.write b r c v }

/-- The first cell of the source window that is `UNDEF`, in row-major order (70 R172). -/
def firstUndef (m : Memory) (b : Bank) (n k : Nat) : Option (Nat × Nat) :=
  (windowCells n k).find? fun rc => (m.read b rc.1 rc.2).isNone

/-- The source window as a grid (20_memory R60). Used only where no cell of it is `UNDEF`. -/
def sourceWindow (m : Memory) (b : Bank) (n k : Nat) : Window :=
  (List.range n).map fun r => (List.range k).map fun c => (m.read b r c).getD 0#64

/-- The write of a whole destination window: cell (r, c) gets `T r c` (20_memory R60). -/
def Memory.writeWindow (m : Memory) (b : Bank) (n k : Nat) (T : Nat → Nat → F64) : Memory :=
  (windowCells n k).foldl (fun m rc => m.write b rc.1 rc.2 (T rc.1 rc.2)) m

/-- `refuse(causes)`: the whole effect of a refused CMD write (60_exceptions R155). It saves nothing and goes nowhere;
there is no return from it (R156). -/
def refuse (cs : List Cause) (s : State) : State := { s with err := errWith cs s.err, status := statusRefused }

/-- The end of an accepted command: LASTCMD ← w, STATUS ← DONE (30_encoding R78). -/
def accept (w : Word32) (s : State) : State := { s with lastCmd := w, status := statusDone }

/-- A host access to a hole sets ERR.E_ADDR and nothing else (20_memory R57). -/
def flagHole (s : State) : State := { s with err := errWith [.addr] s.err }

/-- The word an `HRD` returns joins the host's record of answers. -/
def answer (v : Word64) (s : State) : State := { s with answers := s.answers ++ [v] }

/-- The reset event: every piece of the engine's state takes its value of 10_state R33 and the constants stay (70 R170).
The host's own list of transactions and its record of answers are no state of the engine and stay (log entry 6). -/
def resetEvent (s : State) : State :=
  { State.resetOf s.config with pending := s.pending, answers := s.answers }

/-- The frame the three commands share (30_encoding R73, R78; 40 R90, 41 R100, 42 R115): an illegal dimension refuses the
command with E_DIM; an `UNDEF` cell of the source window is a fault (70 R172); else the result of the source window goes
to the same window of the other bank, LASTCMD takes the command's word and STATUS becomes DONE. -/
def runCommand (i : Instr) (src : Bank) (n m : Nat) (op : Window → Nat → Nat → F64) (s : State) : Out :=
  if dimsLegal s.config.maxDim n m then
    match firstUndef s.mem src n m with
    | some rc => .fault (.undefSource src rc.1 rc.2)
    | none =>
      .next (accept (encode i)
        { s with mem := s.mem.writeWindow (otherBank src) n m (op (sourceWindow s.mem src n m)) })
  else .next (refuse [.dim] s)

end Sys2Proof.Machine
end

