-- ==== Sys2Proof/Machine/Forward.lean ====
section
/-! DEFINITION. `FDCT`, the forward transform at level F (40_fdct R90, R92). -/

namespace Sys2Proof.Machine

/-- One result cell of the reference datapath with the cosine `cos` (R92): the products left to right, the normalisation
once, after the sum. -/
def fdctCell (cos : F64 → F64) (n m : Nat) (S : Window) (u v : Nat) : F64 :=
  fmul (fmul (alpha u n) (alpha v m))
    (accumulate n m fun x y => fmul (fmul (cellOf S x y) (ck cos u x n)) (ck cos v y m))

/-- The stored result cell (u, v) of FDCT_F(N, M, S) on this instance's cosine. -/
def fdctResult (n m : Nat) (S : Window) (u v : Nat) : F64 :=
  storeResult (Config.transformNaNDraw false n m S u v) (fdctCell cosine n m S u v)

/-- `FDCT <bank>, N, M` (R90). -/
def execFdct (src : Bank) (n m : BitVec 12) (s : State) : Out :=
  runCommand (.fdct src n m) src n.toNat m.toNat (fdctResult n.toNat m.toNat) s

end Sys2Proof.Machine
end

