-- ==== Sys2Proof/Machine/Inverse.lean ====
section
/-! DEFINITION. `IDCT`, the inverse transform at level F (42_idct R115, R117). -/

namespace Sys2Proof.Machine

/-- One result cell of the reference datapath with the cosine `cos` (R117): the five factors left to right, the
normalisation inside the sum. -/
def idctCell (cos : F64 → F64) (n m : Nat) (C : Window) (x y : Nat) : F64 :=
  accumulate n m fun u v =>
    fmul (fmul (fmul (fmul (alpha u n) (alpha v m)) (cellOf C u v)) (ck cos u x n)) (ck cos v y m)

/-- The stored result cell (x, y) of IDCT_F(N, M, C) on this instance's cosine. -/
def idctResult (n m : Nat) (C : Window) (x y : Nat) : F64 :=
  storeResult (Config.transformNaNDraw true n m C x y) (idctCell cosine n m C x y)

/-- `IDCT <bank>, N, M` (R115). -/
def execIdct (src : Bank) (n m : BitVec 12) (s : State) : Out :=
  runCommand (.idct src n m) src n.toNat m.toNat (idctResult n.toNat m.toNat) s

end Sys2Proof.Machine
end

