-- ==== Sys2Proof/Machine/Quantizer.lean ====
section
/-! DEFINITION. `QUANT`, the fixed-table quantizer at level F (41_quant R100, R102, R103, R104). -/

namespace Sys2Proof.Machine

/-- One cell: the coefficient divided once by its table entry, then rounded (R102). -/
def quantCell (mode : RoundMode) (entry : BitVec 16) (c : F64) : F64 := rnd mode (fdiv c (cvt entry.toNat))

/-- The stored result of one cell: it depends on the source cell and its table entry only (43_numerics R139). -/
def quantStored (mode : RoundMode) (entry : BitVec 16) (c : F64) : F64 :=
  storeResult (Config.quantNaNDraw entry c) (quantCell mode entry c)

/-- The stored result cell (i, j) of QUANT_F; the table is tiled by (i mod 8, j mod 8) (R104). -/
def quantResult (cfg : Config) (C : Window) (i j : Nat) : F64 :=
  quantStored cfg.roundMode (cfg.entry i j) (cellOf C i j)

/-- `QUANT <bank>, N, M` (R100). -/
def execQuant (src : Bank) (n m : BitVec 12) (s : State) : Out :=
  runCommand (.quant src n m) src n.toNat m.toNat (quantResult s.config) s

end Sys2Proof.Machine
end

