-- ==== Sys2Proof/Machine/Dispatch.lean ====
section
/-! DEFINITION. One arm per command of the opcode map (30_encoding R72, R78). -/

namespace Sys2Proof.Machine

def exec (i : Instr) (s : State) : Host.Outcome State Fault Refusal :=
  match i with
  | .fdct src n m => Sys2Proof.Machine.execFdct src n m s
  | .quant src n m => Sys2Proof.Machine.execQuant src n m s
  | .idct src n m => Sys2Proof.Machine.execIdct src n m s

end Sys2Proof.Machine
end

