-- ==== Sys2Proof/Machine/Transactions.lean ====
section
/-! DEFINITION. The host's moves: `HRD`, `HWR` and reset (20_memory R54 to R57; 70 R170), and the issue of a command
word (30_encoding R78). -/

namespace Sys2Proof.Machine

/-- The command word `v[31:0]` of a write to CMD; `v[63:32]` is ignored (20_memory R54). -/
def commandOf (v : Word64) : Word32 := v.extractLsb' 0 32

/-- A command word taken from a CMD write (30_encoding R78): a word of the opcode map runs (and is refused by its own
meaning where a dimension is out of range), any other word is refused with every cause that applies. -/
def issue (w : Word32) (s : State) : Out :=
  match decode w with
  | some i => exec i s
  | none => .next (refuse (causes s.config.maxDim w) s)

/-- The content of a register; CMD reads as 0 (10_state R24 to R28). -/
def State.reg (s : State) : RegName → Word32
  | .cmd => 0#32
  | .status => s.status
  | .err => s.err
  | .lastCmd => s.lastCmd
  | .cap => capWord s.config

/-- `HRD(a)` (20_memory R54 to R57). -/
def hostRead (a : Addr) (s : State) : Out :=
  match place s.config.maxDim a with
  | .reg r => .next (answer ((s.reg r).zeroExtend 64) s)
  | .cell b r c =>
    match s.cell b r c with
    | some v => .next (answer v s)
    | none => .fault (.undefRead b r c)
  | .table r c => .next (answer ((s.config.entry r c).zeroExtend 64) s)
  | .hole => .next (answer 0#64 (flagHole s))

/-- `HWR(a, v)` (20_memory R54 to R57): a write of CMD issues a command; a write of another register or of the table is
ignored; a write of a hole is dropped and flagged. -/
def hostWrite (a : Addr) (v : Word64) (s : State) : Out :=
  match place s.config.maxDim a with
  | .reg .cmd => issue (commandOf v) s
  | .reg _ => .next s
  | .cell b r c => .next (s.setCell b r c v)
  | .table _ _ => .next s
  | .hole => .next (flagHole s)

/-- One move of the host, completed before the next is accepted (20_memory R61). -/
def transact (t : Transaction) (s : State) : Out :=
  match t with
  | .hrd a => hostRead a s
  | .hwr a v => hostWrite a v s
  | .reset => .next (resetEvent s)

/-- The host's next move: a write of the command word w to CMD. -/
def commandWrite (w : Word32) : Transaction := .hwr cmdAddr (w.zeroExtend 64)

end Sys2Proof.Machine
end

