-- ==== Sys2Proof/Machine/Step.lean ====
section
/-! DEFINITION. One step: the engine accepts the host's next transaction and completes it (20_memory R61, 70 R175). The
engine stores no program and has no program counter (10_state R30): a program is the host's list of transactions (log
entry 5). With none pending the engine is idle and holds its state (60_exceptions R158). -/

namespace Sys2Proof.Machine

def step (s : State) : Host.Outcome State Fault Refusal :=
  match s.pending with
  | [] => .next s
  | t :: rest => transact t { s with pending := rest }

/-- The state in which the host's very next move writes the command word `w` (its low `nbits` bits) to CMD. -/
def State.withFetchWord (s : State) (nbits w : Nat) : State :=
  { s with pending := commandWrite (BitVec.ofNat 32 (w % 2 ^ nbits)) :: s.pending }

end Sys2Proof.Machine
end

