-- ==== Sys2Proof/Machine/Assembler.lean ====
section
/-! DEFINITION. The notation for transaction lists: what each line stands for (30_encoding R76), and the pseudo-command
PIPE (R77). The text of a line is not parsed; a line is given as data. -/

namespace Sys2Proof.Machine

/-- `<f64>` of R76: a decimal floating literal ±digits·10^exp10, `inf`, `-inf`, or a 64-bit word. -/
inductive F64Literal where
  | decimal (negative : Bool) (digits : Nat) (exp10 : Int)
  | inf
  | negInf
  | bits (w : F64)
deriving DecidableEq, Repr

/-- The word of a literal. A decimal literal is rounded to the nearest value, ties to even (PRESUMED, log entry 20). -/
def literalWord : F64Literal → F64
  | .decimal neg digits (.ofNat e) => pack neg (roundMag (digits * 10 ^ e * unitsPerOne) 1)
  | .decimal neg digits (.negSucc e) => pack neg (roundMag (digits * unitsPerOne) (10 ^ (e + 1)))
  | .inf => pack false infMag
  | .negInf => pack true infMag
  | .bits w => w

/-- One line of the notation (R76, R77). -/
inductive AsmLine where
  | fdct (bank : Bank) (n m : BitVec 12)
  | quant (bank : Bank) (n m : BitVec 12)
  | idct (bank : Bank) (n m : BitVec 12)
  | cmdw (w : Word32)
  | st (bank : Bank) (r c : BitVec 12) (x : F64Literal)
  | ld (bank : Bank) (r c : BitVec 12)
  | ldr (reg : RegName)
  | ldq (r c : BitVec 12)
  | reset
  | pipe (bank : Bank) (n m : BitVec 12)
deriving DecidableEq, Repr

/-- The index of a register (10_state R24 to R28). -/
def indexOfReg : RegName → BitVec 12
  | .cmd => 0#12
  | .status => 1#12
  | .err => 2#12
  | .lastCmd => 3#12
  | .cap => 4#12

/-- The three commands of `PIPE <bank>, N, M` (R77): forward from the bank, quantize from the other, inverse from the
bank again. -/
def pipeCommands (bank : Bank) (n m : BitVec 12) : List Instr :=
  [.fdct bank n m, .quant (otherBank bank) n m, .idct bank n m]

/-- The transactions a line stands for (R76, R77). -/
def lineTransactions : AsmLine → List Transaction
  | .fdct b n m => [commandWrite (encode (.fdct b n m))]
  | .quant b n m => [commandWrite (encode (.quant b n m))]
  | .idct b n m => [commandWrite (encode (.idct b n m))]
  | .cmdw w => [commandWrite w]
  | .st b r c x => [.hwr (wordAddr (bankSpace b) r c) (literalWord x)]
  | .ld b r c => [.hrd (wordAddr (bankSpace b) r c)]
  | .ldr reg => [.hrd (wordAddr 0#2 0#12 (indexOfReg reg))]
  | .ldq r c => [.hrd (wordAddr 3#2 r c)]
  | .reset => [.reset]
  | .pipe b n m => (pipeCommands b n m).map fun i => commandWrite (encode i)

/-- A state whose host will issue the given program after what it still has to issue. -/
def State.withProgram (s : State) (program : List AsmLine) : State :=
  { s with pending := s.pending ++ program.flatMap lineTransactions }

end Sys2Proof.Machine
end

