-- ==== Sys2Proof/Machine/Platform.lean ====
section
/-! DEFINITION. A byte-addressed platform's view of the map (20_memory R52, R53, R59; 93 U14). The engine itself has no
byte addresses (R51); a platform that maps a word to eight bytes multiplies the word address by 8, and the byte at the
lowest address holds bits 7:0. What a platform does with a byte address that is no multiple of 8 is open; here it is
refused by name, before any transaction reaches the engine (log entry 18). -/

namespace Sys2Proof.Machine

/-- The byte address of a word address on a platform that places the map at `base`. -/
def platformByteAddr (base : Nat) (a : Addr) : Nat := base + 8 * a.toNat

/-- The word address of a byte address; refused unless it is a multiple of 8 from the base and inside the map. -/
def platformWordAddr (base p : Nat) : Except Refusal Addr :=
  if base ≤ p ∧ (p - base) % 8 = 0 ∧ (p - base) / 8 < 2 ^ 26 then .ok (BitVec.ofNat 26 ((p - base) / 8))
  else .error .platformByteAddress

/-- The eight bytes of a word, lowest address first: little-endian (R52). -/
def bytesOfWord (w : Word64) : Vector Byte 8 :=
  #v[w.extractLsb' 0 8, w.extractLsb' 8 8, w.extractLsb' 16 8, w.extractLsb' 24 8,
     w.extractLsb' 32 8, w.extractLsb' 40 8, w.extractLsb' 48 8, w.extractLsb' 56 8]

/-- The word of eight bytes, lowest address first (R52). -/
def wordOfBytes (b : Vector Byte 8) : Word64 :=
  b[7] ++ b[6] ++ b[5] ++ b[4] ++ b[3] ++ b[2] ++ b[1] ++ b[0]

/-- The host read that a platform's read of eight bytes at `p` becomes. -/
def platformRead (p : Nat) : Except Refusal Transaction :=
  match platformWordAddr Config.platformBase p with
  | .ok a => .ok (.hrd a)
  | .error e => .error e

/-- The host write that a platform's write of eight bytes at `p` becomes. -/
def platformWrite (p : Nat) (b : Vector Byte 8) : Except Refusal Transaction :=
  match platformWordAddr Config.platformBase p with
  | .ok a => .ok (.hwr a (wordOfBytes b))
  | .error e => .error e

end Sys2Proof.Machine
end

