-- ==== Sys2Proof/Machine/LevelR.lean ====
section
/-! DEFINITION. Level R: the exact real functions that the source's formulas denote (00_scope R15; 40_fdct R91; 41_quant
R101; 42_idct R116; 43_numerics R131, R132), the real number a binary64 word stands for, and what a conforming engine's
level F owes to level R (43_numerics R126, R130, R137). Nothing here takes part in a step; statements relate the two
levels. -/

namespace Sys2Proof.Machine

open scoped BigOperators

/-- The rational number a finite binary64 value is (R125). -/
def toRat (w : F64) : ℚ := (signedUnits w : ℚ) / (unitsPerOne : ℚ)

/-- The real number a finite binary64 value is. -/
noncomputable def toReal (w : F64) : ℝ := ((toRat w : ℚ) : ℝ)

/-- αR(k, D) (R131). -/
noncomputable def alphaR (k d : ℕ) : ℝ := if k = 0 then √(1 / (d : ℝ)) else √(2 / (d : ℝ))

/-- cos(π·k·(2i+1)/(2D)) (R132). -/
noncomputable def cosR (k i d : ℕ) : ℝ := Real.cos (Real.pi * k * (2 * i + 1) / (2 * d))

/-- FDCT_R(N, M, S) (40_fdct R91). -/
noncomputable def fdctR (n m : ℕ) (S : ℕ → ℕ → ℝ) (u v : ℕ) : ℝ :=
  alphaR u n * alphaR v m *
    ∑ x ∈ Finset.range n, ∑ y ∈ Finset.range m, S x y * cosR u x n * cosR v y m

/-- IDCT_R(N, M, C) (42_idct R116). -/
noncomputable def idctR (n m : ℕ) (C : ℕ → ℕ → ℝ) (x y : ℕ) : ℝ :=
  ∑ u ∈ Finset.range n, ∑ v ∈ Finset.range m,
    alphaR u n * alphaR v m * C u v * cosR u x n * cosR v y m

/-- Rounding of a real number to the nearest integer, the half-way case by the mode (41_quant R101, R103). -/
noncomputable def roundR (mode : RoundMode) (x : ℝ) : ℤ :=
  let n := ⌊|x|⌋
  let f := |x| - n
  let k := if f < 1 / 2 then n else if 1 / 2 < f then n + 1
    else match mode with
      | .halfAway => n + 1
      | .halfEven => if n % 2 = 0 then n else n + 1
  if x < 0 then -k else k

/-- R(i, j) of the quantizer at level R (41_quant R101). -/
noncomputable def quantR (cfg : Config) (C : ℕ → ℕ → ℝ) (i j : ℕ) : ℝ :=
  (roundR cfg.roundMode (C i j / ((cfg.entry i j).toNat : ℝ)) : ℝ)

/-- The least rational magnitude that rounds to Inf: half-way between the largest finite value and 2^1024 (R126). -/
def overflowBound : ℚ := 2 ^ 1024 - 2 ^ 970

/-- `w` is the finite value nearest the rational x, and in a tie the one whose fraction is even (R126). -/
def IsNearestEven (x : ℚ) (w : F64) : Prop :=
  isFinite w = true ∧
    ∀ c : F64, isFinite c = true → |toRat w - x| ≤ |toRat c - x| ∧
      (|toRat w - x| = |toRat c - x| → toRat c ≠ toRat w → fmag w % 2 = 0)

/-- What one rounding of the exact result x may answer (R126): the nearest finite value, ties to even, or the Inf of its
sign once the magnitude after rounding would exceed the largest finite value. -/
def RoundsTo (x : ℚ) (w : F64) : Prop :=
  (|x| < overflowBound → IsNearestEven x w) ∧
    (overflowBound ≤ x → w = pack false infMag) ∧ (x ≤ -overflowBound → w = pack true infMag)

/-- `w` is the finite value nearest the real x, and in a tie the one whose fraction is even (R129). -/
def IsNearestEvenReal (x : ℝ) (w : F64) : Prop :=
  isFinite w = true ∧
    ∀ c : F64, isFinite c = true → |toReal w - x| ≤ |toReal c - x| ∧
      (|toReal w - x| = |toReal c - x| → toReal c ≠ toReal w → fmag w % 2 = 0)

/-- `COS_ERR` (R130 item 4), as the least bound: how far the instance's cosine can be from the exact one on the
arguments it is applied to (log entry 9). -/
noncomputable def cosErr : ℝ :=
  sSup {e : ℝ | ∃ k i d : ℕ, k < d ∧ i < d ∧ d ≤ 4095 ∧
    e = |toReal (cosine (arg k i d)) - Real.cos (toReal (arg k i d))|}

/-- The largest finite binary64 value, as a real number (R126). -/
noncomputable def maxFinite : ℝ := (2 ^ 53 - 1) * 2 ^ 971

/-- No term and no partial sum of a level-R double sum leaves the finite range (R137). DESIGN CHOICE (log entry 21): the
spec says "no intermediate of the level-R computation" and names none, and level R's sum has no order; the model takes
each term and the partial sums row by row, first index outer. -/
def SumInRange (n m : ℕ) (term : ℕ → ℕ → ℝ) : Prop :=
  (∀ x < n, ∀ y < m, |term x y| ≤ maxFinite) ∧
    ∀ x < n, ∀ y ≤ m,
      |(∑ p ∈ Finset.range x, ∑ q ∈ Finset.range m, term p q) + ∑ q ∈ Finset.range y, term x q| ≤ maxFinite

/-- A legal size of the instance (00_scope R7, 30_encoding R73). -/
abbrev SizeLegal (c : Config) (n m : ℕ) : Prop := (1 ≤ n ∧ n ≤ c.maxDim) ∧ 1 ≤ m ∧ m ≤ c.maxDim

/-- Every cell of an N×M window is a finite value, the first premise of R137. -/
abbrev WindowFinite (n m : ℕ) (S : Window) : Prop := ∀ x < n, ∀ y < m, isFinite (cellOf S x y) = true

/-- The result cell `w` is a finite value that differs from the real x by at most `tol` (R137). An Inf or a NaN is no
real number, so it differs from none by any amount. -/
def Within (tol : ℝ) (w : F64) (x : ℝ) : Prop := isFinite w = true ∧ |toReal w - x| ≤ tol

/-- What R137 asks of an engine's FDCT for the tolerance `tol`: on legal sizes and finite source windows whose level-R
computation stays in range, every result cell is within `tol` of level R. That the FDCT result counts among the
intermediates is the model's choice too (DESIGN CHOICE, log entry 21). -/
def FdctWithin (c : Config) (tol : ℝ) (engine : ℕ → ℕ → Window → ℕ → ℕ → F64) : Prop :=
  ∀ n m S, SizeLegal c n m → WindowFinite n m S →
    (∀ u < n, ∀ v < m, SumInRange n m fun x y => toReal (cellOf S x y) * cosR u x n * cosR v y m) →
    (∀ u < n, ∀ v < m, |fdctR n m (fun x y => toReal (cellOf S x y)) u v| ≤ maxFinite) →
    ∀ u < n, ∀ v < m, Within tol (engine n m S u v) (fdctR n m (fun x y => toReal (cellOf S x y)) u v)

/-- What R137 asks of an engine's IDCT for the tolerance `tol`. -/
def IdctWithin (c : Config) (tol : ℝ) (engine : ℕ → ℕ → Window → ℕ → ℕ → F64) : Prop :=
  ∀ n m C, SizeLegal c n m → WindowFinite n m C →
    (∀ x < n, ∀ y < m, SumInRange n m fun u v =>
      alphaR u n * alphaR v m * toReal (cellOf C u v) * cosR u x n * cosR v y m) →
    ∀ x < n, ∀ y < m, Within tol (engine n m C x y) (idctR n m (fun u v => toReal (cellOf C u v)) x y)

/-- The rounding of the exact quotient q to the value q' lands on or crosses a half-integer (41_quant R102): a half-integer
lies between the two, ends included. A quotient that is not rounded crosses none. -/
def RoundsAcrossHalf (q q' : ℚ) : Prop :=
  q ≠ q' ∧ ∃ k : ℤ, min q q' ≤ k + 1 / 2 ∧ (k + 1 / 2 : ℚ) ≤ max q q'

/-- What R137 asks of an engine's QUANT: on legal sizes and finite source windows every result cell is the level-R value,
unless the division rounds onto or across a half-integer. -/
def QuantAgrees (c : Config) (engine : ℕ → ℕ → Window → ℕ → ℕ → F64) : Prop :=
  ∀ n m C, SizeLegal c n m → WindowFinite n m C → ∀ i < n, ∀ j < m,
    ¬ RoundsAcrossHalf (toRat (cellOf C i j) / (c.entry i j).toNat)
      (toRat (fdiv (cellOf C i j) (cvt (c.entry i j).toNat))) →
    Within 0 (engine n m C i j) (quantR c (fun x y => toReal (cellOf C x y)) i j)

/-- Three operations conform to the instance's open tolerance (00_scope R11, 43_numerics R137). Whether the reference
datapath's transforms do is left open: TOL is an open parameter and no statement rests on it (log entry 17). -/
def Conforms (c : Config) (fdct quant idct : ℕ → ℕ → Window → ℕ → ℕ → F64) : Prop :=
  FdctWithin c (Config.tol : ℝ) fdct ∧ QuantAgrees c quant ∧ IdctWithin c (Config.tol : ℝ) idct

end Sys2Proof.Machine
end

