-- ==== Sys2Proof/Safety.lean ====
section
/-! DEFINITION. What statements about every state speak of: the invariant of the machine, a clean run, a run gone
wrong. -/

namespace Sys2Proof.Machine

/-- Every stored cell of a bank lies at a row and a column below MAXDIM (10_state R21; 20_memory R57). -/
abbrev Grid.inside (maxDim : Nat) (g : Grid) : Prop :=
  ∀ e ∈ g, e.1 / 4096 < maxDim ∧ e.1 % 4096 < maxDim

/-- The invariant that every step keeps: a valid instance, canonical banks whose cells exist, and registers that hold only
what 10_state R25 to R27 lets them hold. -/
structure State.Inv (s : State) : Prop where
  /-- The instance's constants are as 00_scope R7 and R8 require. -/
  config_valid : s.config.Valid
  /-- Both banks are in canonical form. -/
  memory_wf : Memory.wf s.mem
  /-- No cell is stored outside MAXDIM × MAXDIM. -/
  ga_inside : Grid.inside s.config.maxDim s.mem.ga
  /-- The same for the other bank. -/
  gb_inside : Grid.inside s.config.maxDim s.mem.gb
  /-- STATUS is 0, DONE or REFUSED: never both, no reserved bit (R25). -/
  status_legal : s.status = 0 ∨ s.status = statusDone ∨ s.status = statusRefused
  /-- The reserved bits of ERR are 0 (R26). -/
  err_legal : s.err.toNat < 16
  /-- LASTCMD is 0 or a legal command word (R27). -/
  lastCmd_legal : s.lastCmd = 0 ∨ causes s.config.maxDim s.lastCmd = []
  /-- After an accepted command LASTCMD is its word (30_encoding R78). -/
  done_has_command : s.status = statusDone → causes s.config.maxDim s.lastCmd = []
  /-- After a refusal one of the three causes of a refusal is recorded (60_exceptions R155). -/
  refused_has_cause : s.status = statusRefused → s.err &&& 0x7#32 ≠ 0
  /-- Before the first CMD write since reset no command has been accepted (R27). -/
  fresh_has_none : s.status = 0 → s.lastCmd = 0

/-- The source bank of a command (30_encoding R71). -/
def sourceOf : Instr → Bank
  | .fdct src _ _ => src
  | .quant src _ _ => src
  | .idct src _ _ => src

/-- The value a command computes for a cell of its window from the source grid (40_fdct R92, 41_quant R102, 42_idct
R117). -/
def resultOf (c : Config) : Instr → Window → Nat → Nat → F64
  | .fdct _ n m => fdctResult n.toNat m.toNat
  | .quant _ _ _ => quantResult c
  | .idct _ n m => idctResult n.toNat m.toNat

/-- Every cell of the N×M window of a bank has been written since reset (70 R171). -/
abbrev State.WindowWritten (s : State) (b : Bank) (n m : Nat) : Prop :=
  ∀ r, r < n → ∀ c, c < m → (s.cell b r c).isSome = true

/-- The N×M window of a bank holds the grid S. -/
abbrev State.WindowHolds (s : State) (b : Bank) (n m : Nat) (S : Window) : Prop :=
  ∀ r, r < n → ∀ c, c < m → s.cell b r c = some (cellOf S r c)

/-- A grid as data: N rows of M cells. -/
def gridOf (n m : Nat) (T : Nat → Nat → F64) : Window :=
  (List.range n).map fun r => (List.range m).map fun c => T r c

/-- `y` is what is stored for the computed value `x`: x itself, or some NaN where x is a NaN (43_numerics R133). -/
def StoredAs (x y : F64) : Prop := (isNaN x = false → y = x) ∧ (isNaN x = true → isNaN y = true)

/-- What an accepted command leaves alone (20_memory R60): the instance's constants, ERR, the host's lists, every cell of
the source bank, and every cell of the destination bank outside the window. -/
structure CommandFrame (i : Instr) (s t : State) : Prop where
  config : t.config = s.config
  err : t.err = s.err
  pending : t.pending = s.pending
  answers : t.answers = s.answers
  source : ∀ r c, t.cell (sourceOf i) r c = s.cell (sourceOf i) r c
  outside : ∀ r c, c < 4096 → ¬ (r < i.rows.toNat ∧ c < i.cols.toNat) →
    t.cell (otherBank (sourceOf i)) r c = s.cell (otherBank (sourceOf i)) r c

/-- `k` steps of the machine. -/
def runFor (k : Nat) (s : State) : Out := Host.Core.run Sys2Proof.core k s

/-- No error recorded since reset (93 U11). -/
abbrev State.Clean (s : State) : Prop := s.err = 0

/-- The run has gone wrong: a command or a host read used an `UNDEF` cell (70 R172, R175). -/
def WentWrong (o : Out) : Prop := ∃ f, o = .fault f

/-- The next state of an outcome, if it is one. -/
def nextOf : Out → Option State
  | .next s => some s
  | _ => none

end Sys2Proof.Machine
end

