-- ==== Sys2Proof/Certificates/Slice0/Obligations.lean ====
section
/-! DEFINITION. The statements for the provers. Each docstring names the rule of spec/ it speaks of. Statements about a
state hold for every instance, since the state carries the instance's constants, for every cosine and for every choice
of a NaN's bits, since those are opaque. -/

open Sys2Proof Sys2Proof.Machine

/-! ### The command word -/

/-- 30_encoding R70, R71: the decoder reads every field of every instruction's word back. -/
def Obligations.DecodeOfEncode : Prop := ∀ i : Instr, decode (encode i) = some i

/-- 30_encoding R70, R72: a word the decoder accepts has one meaning: it is the word of that instruction. -/
def Obligations.EncodeOfDecode : Prop := ∀ (w : Word32) (i : Instr), decode w = some i → encode i = w

/-- 30_encoding R72 (and R71 for the fields): the opcode map under the mask 0xF7000000. -/
def Obligations.DecodeFollowsOpcodeMap : Prop :=
  ∀ w : Word32,
    let bank : Bank := if w.getLsbD 27 then .gb else .ga
    let n : BitVec 12 := BitVec.ofNat 12 (w.toNat / 2 ^ 12)
    let m : BitVec 12 := BitVec.ofNat 12 w.toNat
    (w &&& 0xF7000000#32 = 0x10000000#32 → decode w = some (.fdct bank n m)) ∧
    (w &&& 0xF7000000#32 = 0x20000000#32 → decode w = some (.quant bank n m)) ∧
    (w &&& 0xF7000000#32 = 0x30000000#32 → decode w = some (.idct bank n m)) ∧
    (w &&& 0xF7000000#32 ≠ 0x10000000#32 → w &&& 0xF7000000#32 ≠ 0x20000000#32 →
      w &&& 0xF7000000#32 ≠ 0x30000000#32 → decode w = none)

/-- 30_encoding R76: the words the spec prints for five command lines decode to those commands. -/
def Obligations.PrintedWordsDecode : Prop :=
  decode 0x10008008#32 = some (.fdct .ga 8#12 8#12) ∧ decode 0x28008008#32 = some (.quant .gb 8#12 8#12) ∧
  decode 0x30008008#32 = some (.idct .ga 8#12 8#12) ∧ decode 0x1000A010#32 = some (.fdct .ga 10#12 16#12) ∧
  decode 0x38002002#32 = some (.idct .gb 2#12 2#12)

/-- 30_encoding R73: exactly which words are legal, and which causes every other word is refused for. -/
def Obligations.CausesOfAWord : Prop :=
  ∀ (maxDim : Nat) (w : Word32),
    let op := w.toNat / 2 ^ 28
    let z := w.toNat / 2 ^ 24 % 8
    let n := w.toNat / 2 ^ 12 % 4096
    let m := w.toNat % 4096
    (Cause.op ∈ causes maxDim w ↔ op = 0 ∨ 4 ≤ op) ∧
    (Cause.rsv ∈ causes maxDim w ↔ z ≠ 0) ∧
    (Cause.dim ∈ causes maxDim w ↔ n = 0 ∨ m = 0 ∨ maxDim < n ∨ maxDim < m) ∧
    Cause.addr ∉ causes maxDim w ∧
    (causes maxDim w = [] ↔
      (op = 1 ∨ op = 2 ∨ op = 3) ∧ z = 0 ∧ (1 ≤ n ∧ n ≤ maxDim) ∧ 1 ≤ m ∧ m ≤ maxDim)

/-! ### The step and the command write -/

/-- 30_encoding R78, 20_memory R61: when the host's next move writes a word of the opcode map to CMD, the step is exec
of that instruction on the state with the move taken off the host's list, and nothing else happens around it. -/
def Obligations.StepRunsDecodedInstruction : Prop :=
  ∀ (s : State) (v : Word64) (rest : List Transaction) (i : Instr),
    s.pending = .hwr cmdAddr v :: rest → decode (v.extractLsb' 0 32) = some i →
    step s = exec i { s with pending := rest }

/-- 60_exceptions R155: the whole effect of a refused CMD write: every cause that applies is recorded, STATUS becomes
REFUSED, and nothing else changes. -/
def Obligations.RefusedWriteChangesOnlyErrAndStatus : Prop :=
  ∀ (s : State) (v : Word64) (rest : List Transaction),
    let cs := causes s.config.maxDim (v.extractLsb' 0 32)
    s.pending = .hwr cmdAddr v :: rest → cs ≠ [] →
    step s = .next { s with
      pending := rest
      status := 0x00000002#32
      err := s.err ||| (if Cause.op ∈ cs then 0x1#32 else 0#32) ||| (if Cause.rsv ∈ cs then 0x2#32 else 0#32)
        ||| (if Cause.dim ∈ cs then 0x4#32 else 0#32) }

/-- 30_encoding R78: a legal word whose source window is written is accepted: LASTCMD takes the word, STATUS becomes
DONE, ERR stays. -/
def Obligations.AcceptedWriteRecordsTheCommand : Prop :=
  ∀ (s : State) (v : Word64) (rest : List Transaction) (i : Instr),
    s.pending = .hwr cmdAddr v :: rest → causes s.config.maxDim (v.extractLsb' 0 32) = [] →
    decode (v.extractLsb' 0 32) = some i → s.WindowWritten (sourceOf i) i.rows.toNat i.cols.toNat →
    ∃ t, step s = .next t ∧ t.lastCmd = v.extractLsb' 0 32 ∧ t.status = 0x00000001#32 ∧ t.err = s.err ∧
      t.pending = rest

/-- 60_exceptions R158: between the host's moves the engine is idle and holds its state. -/
def Obligations.IdleEngineHoldsItsState : Prop := ∀ s : State, s.pending = [] → step s = .next s

/-! ### The three commands -/

/-- 40_fdct R90, R92: FDCT completes on every legal size whose source window is written; each cell of the destination
window is the reference datapath's value, written out with ALPHA, ARG, CK and PI64 of 43_numerics R128, R131, R132 (some
NaN where that is a NaN); LASTCMD and STATUS record it; nothing else changes. -/
def Obligations.FdctWritesForwardTransform : Prop :=
  ∀ (src : Bank) (n m : BitVec 12) (s : State) (S : Window),
    let alpha (k d : Nat) : F64 :=
      if k = 0 then fsqrt (fdiv 0x3FF0000000000000#64 (cvt d)) else fsqrt (fdiv 0x4000000000000000#64 (cvt d))
    let ck (k i d : Nat) : F64 :=
      cosine (fdiv (fmul (fmul 0x400921FB54442D18#64 (cvt k)) (cvt (2 * i + 1))) (cvt (2 * d)))
    (Instr.fdct src n m).WellFormed s.config → s.WindowHolds src n.toNat m.toNat S →
    ∃ t, exec (.fdct src n m) s = .next t ∧
      (∀ u, u < n.toNat → ∀ v, v < m.toNat → ∃ y, t.cell (otherBank src) u v = some y ∧
        StoredAs (fmul (fmul (alpha u n.toNat) (alpha v m.toNat))
          ((List.range n.toNat).foldl (fun row x => (List.range m.toNat).foldl (fun acc y =>
            fadd acc (fmul (fmul (cellOf S x y) (ck u x n.toNat)) (ck v y m.toNat))) row)
            0x0000000000000000#64)) y) ∧
      t.lastCmd = encode (.fdct src n m) ∧ t.status = 0x00000001#32 ∧ CommandFrame (.fdct src n m) s t

/-- 41_quant R100, R102, R104: QUANT completes on every legal size whose source window is written; cell (i, j) is
RND(C ⊘ cvt(QROM[i mod 8][j mod 8])) (some NaN where that is a NaN); nothing else changes. -/
def Obligations.QuantWritesRoundedQuotients : Prop :=
  ∀ (src : Bank) (n m : BitVec 12) (s : State) (C : Window),
    (Instr.quant src n m).WellFormed s.config → s.WindowHolds src n.toNat m.toNat C →
    ∃ t, exec (.quant src n m) s = .next t ∧
      (∀ i, i < n.toNat → ∀ j, j < m.toNat → ∃ y, t.cell (otherBank src) i j = some y ∧
        StoredAs (rnd s.config.roundMode (fdiv (cellOf C i j) (cvt (s.config.entry (i % 8) (j % 8)).toNat))) y) ∧
      t.lastCmd = encode (.quant src n m) ∧ t.status = 0x00000001#32 ∧ CommandFrame (.quant src n m) s t

/-- 42_idct R115, R117: IDCT completes on every legal size whose source window is written; each cell of the destination
window is the reference datapath's value, written out with ALPHA, ARG, CK and PI64 of 43_numerics R128, R131, R132 (some
NaN where that is a NaN); LASTCMD and STATUS record it; nothing else changes. -/
def Obligations.IdctWritesInverseTransform : Prop :=
  ∀ (src : Bank) (n m : BitVec 12) (s : State) (C : Window),
    let alpha (k d : Nat) : F64 :=
      if k = 0 then fsqrt (fdiv 0x3FF0000000000000#64 (cvt d)) else fsqrt (fdiv 0x4000000000000000#64 (cvt d))
    let ck (k i d : Nat) : F64 :=
      cosine (fdiv (fmul (fmul 0x400921FB54442D18#64 (cvt k)) (cvt (2 * i + 1))) (cvt (2 * d)))
    (Instr.idct src n m).WellFormed s.config → s.WindowHolds src n.toNat m.toNat C →
    ∃ t, exec (.idct src n m) s = .next t ∧
      (∀ x, x < n.toNat → ∀ y, y < m.toNat → ∃ z, t.cell (otherBank src) x y = some z ∧
        StoredAs ((List.range n.toNat).foldl (fun row u => (List.range m.toNat).foldl (fun acc v =>
          fadd acc (fmul (fmul (fmul (fmul (alpha u n.toNat) (alpha v m.toNat)) (cellOf C u v))
            (ck u x n.toNat)) (ck v y m.toNat))) row) 0x0000000000000000#64) z) ∧
      t.lastCmd = encode (.idct src n m) ∧ t.status = 0x00000001#32 ∧ CommandFrame (.idct src n m) s t

/-- 30_encoding R73, 60_exceptions R155: a command of FDCT, QUANT or IDCT with a dimension outside 1..MAXDIM is refused
with E_DIM alone and none of its effect. -/
def Obligations.IllegalDimensionIsRefused : Prop :=
  ∀ (i : Instr) (s : State),
    (i.rows.toNat = 0 ∨ i.cols.toNat = 0 ∨ s.config.maxDim < i.rows.toNat ∨ s.config.maxDim < i.cols.toNat) →
    exec i s = .next { s with err := s.err ||| 0x4#32, status := 0x00000002#32 }

/-- 70_reset_and_hazards R172, 93 U1: a legal command faults exactly when a cell of its source window is UNDEF, and the
cell it names is such a cell. -/
def Obligations.UndefSourceCellIsAFault : Prop :=
  ∀ (i : Instr) (s : State), i.WellFormed s.config →
    ((∃ f, exec i s = .fault f) ↔
      ∃ r c, r < i.rows.toNat ∧ c < i.cols.toNat ∧ s.cell (sourceOf i) r c = none) ∧
    (∀ f, exec i s = .fault f → ∃ r c, f = .undefSource (sourceOf i) r c ∧ r < i.rows.toNat ∧ c < i.cols.toNat ∧
      s.cell (sourceOf i) r c = none)

/-- 20_memory R60: whatever a command does when it goes on, every cell that differs afterwards is in its destination
window, and the source bank, the constants and the host's lists are as before; ERR is as before or has E_DIM set, and
LASTCMD is as before or the command's word. -/
def Obligations.CommandWritesOnlyItsWindow : Prop :=
  ∀ (i : Instr) (s t : State), exec i s = .next t →
    (∀ b r c, c < 4096 → t.cell b r c ≠ s.cell b r c →
      b = otherBank (sourceOf i) ∧ r < i.rows.toNat ∧ c < i.cols.toNat) ∧
    t.mem.bank (sourceOf i) = s.mem.bank (sourceOf i) ∧
    t.config = s.config ∧ t.pending = s.pending ∧ t.answers = s.answers ∧
    (t.err = s.err ∧ t.lastCmd = encode i ∧ t.status = 0x00000001#32 ∨
      t.err = s.err ||| 0x4#32 ∧ t.lastCmd = s.lastCmd ∧ t.status = 0x00000002#32 ∧ t.mem = s.mem)

/-- 10_state R32, 43_numerics R140: the result of a command depends on the command, the source window and the
configuration, and on nothing else: two states that agree on those get the same destination window, bit for bit. -/
def Obligations.ResultDependsOnWindowOnly : Prop :=
  ∀ (i : Instr) (s s' t : State), s.config = s'.config →
    (∀ r, r < i.rows.toNat → ∀ c, c < i.cols.toNat → s.cell (sourceOf i) r c = s'.cell (sourceOf i) r c) →
    i.WellFormed s.config → exec i s = .next t →
    ∃ t', exec i s' = .next t' ∧ ∀ r, r < i.rows.toNat → ∀ c, c < i.cols.toNat →
      t'.cell (otherBank (sourceOf i)) r c = t.cell (otherBank (sourceOf i)) r c

/-- 43_numerics R139: a result cell of QUANT depends on its own source cell and table entry only. That the equality covers
the bits of a stored NaN, over different windows and different instances, is the model's choice (DESIGN CHOICE, log entry
11): R133 leaves those bits open, and R140 fixes them for one window on one engine only. -/
def Obligations.QuantCellDependsOnItsOwnCell : Prop :=
  ∀ (src : Bank) (n m : BitVec 12) (s s' t t' : State) (i j : Nat), i < n.toNat → j < m.toNat →
    (Instr.quant src n m).WellFormed s.config → (Instr.quant src n m).WellFormed s'.config →
    s.config.roundMode = s'.config.roundMode →
    s.config.entry (i % 8) (j % 8) = s'.config.entry (i % 8) (j % 8) →
    s.cell src i j = s'.cell src i j → exec (.quant src n m) s = .next t → exec (.quant src n m) s' = .next t' →
    t.cell (otherBank src) i j = t'.cell (otherBank src) i j

/-- 20_memory R58: with the source window unchanged a second run of the same command leaves the same state. -/
def Obligations.SecondRunChangesNothing : Prop :=
  ∀ (i : Instr) (s t : State), Memory.wf s.mem → exec i s = .next t → exec i t = .next t

/-- 30_encoding R77: PIPE is three commands; afterwards the other bank's window holds the inverse transform of the
quantized forward transform of the input, and the named bank's window holds the quantized coefficients. What the three
commands do to STATUS, LASTCMD, ERR and the other cells is R78 and 20_memory R60. The bits of a stored NaN are those the
model draws (DESIGN CHOICE, log entry 11). -/
def Obligations.PipeComposesTheThreeStages : Prop :=
  ∀ (bank : Bank) (n m : BitVec 12) (s : State) (rest : List Transaction),
    (Instr.fdct bank n m).WellFormed s.config → s.WindowWritten bank n.toNat m.toNat →
    s.pending = lineTransactions (.pipe bank n m) ++ rest →
    let input := sourceWindow s.mem bank n.toNat m.toNat
    let coefficients := gridOf n.toNat m.toNat (fdctResult n.toNat m.toNat input)
    let quantized := gridOf n.toNat m.toNat (quantResult s.config coefficients)
    ∃ t, runFor 3 s = .next t ∧
      (∀ r, r < n.toNat → ∀ c, c < m.toNat →
        t.cell bank r c = some (cellOf quantized r c) ∧
        t.cell (otherBank bank) r c = some (idctResult n.toNat m.toNat quantized r c)) ∧
      (∀ b r c, c < 4096 → ¬ (r < n.toNat ∧ c < m.toNat) → t.cell b r c = s.cell b r c) ∧
      t.pending = rest ∧ t.err = s.err ∧ t.status = 0x00000001#32 ∧ t.lastCmd = encode (.idct bank n m) ∧
      t.config = s.config ∧ t.answers = s.answers

/-! ### Host access -/

/-- 20_memory R50: the word address of space, row and column, and the fields it reads back to. -/
def Obligations.WordAddressFields : Prop :=
  (∀ (sp : BitVec 2) (r c : BitVec 12),
    (wordAddr sp r c).toNat = sp.toNat * 2 ^ 24 + r.toNat * 2 ^ 12 + c.toNat) ∧
  ∀ a : Addr, wordAddr (spaceField a) (rowField a) (colField a) = a

/-- 20_memory R55: a host write of a cell followed by a read of it returns the same 64 bits, whatever they encode, and
changes no other cell and no register. -/
def Obligations.CellReadReturnsWrittenBits : Prop :=
  ∀ (s : State) (b : Bank) (r c : BitVec 12) (v : Word64) (rest : List Transaction),
    r.toNat < s.config.maxDim → c.toNat < s.config.maxDim →
    s.pending = .hwr (wordAddr (bankSpace b) r c) v :: .hrd (wordAddr (bankSpace b) r c) :: rest →
    ∃ t, runFor 2 s = .next t ∧ t.answers = s.answers ++ [v] ∧ t.cell b r.toNat c.toNat = some v ∧
      (∀ b' r' c', c' < 4096 → ¬ (b' = b ∧ r' = r.toNat ∧ c' = c.toNat) → t.cell b' r' c' = s.cell b' r' c') ∧
      t.status = s.status ∧ t.err = s.err ∧ t.lastCmd = s.lastCmd ∧ t.config = s.config ∧ t.pending = rest

/-- 20_memory R55, 70 R172: a host read of a cell returns its content and changes nothing but the host's lists; a read
of an UNDEF cell is a fault. -/
def Obligations.CellReadReturnsContentOrFaults : Prop :=
  ∀ (s : State) (b : Bank) (r c : BitVec 12) (rest : List Transaction),
    r.toNat < s.config.maxDim → c.toNat < s.config.maxDim →
    s.pending = .hrd (wordAddr (bankSpace b) r c) :: rest →
    (∀ v, s.cell b r.toNat c.toNat = some v →
      step s = .next { s with pending := rest, answers := s.answers ++ [v] }) ∧
    (s.cell b r.toNat c.toNat = none → step s = .fault (.undefRead b r.toNat c.toNat))

/-- 20_memory R54: a read of a register returns its 32 bits with a zero upper half, CMD reads as 0, and no read has a
side effect; a write of STATUS, ERR, LASTCMD or CAP is ignored and sets no ERR bit; a write of CMD issues `v[31:0]` and
ignores `v[63:32]`. -/
def Obligations.RegisterSpaceAccess : Prop :=
  ∀ (s : State) (rest : List Transaction),
    (∀ reg : RegName, s.pending = .hrd (wordAddr 0#2 0#12 (indexOfReg reg)) :: rest →
      step s = .next { s with
        pending := rest
        answers := s.answers ++ [(match reg with
          | .cmd => 0#32
          | .status => s.status
          | .err => s.err
          | .lastCmd => s.lastCmd
          | .cap => capWord s.config).zeroExtend 64] }) ∧
    (∀ (reg : RegName) (v : Word64), reg ≠ .cmd → s.pending = .hwr (wordAddr 0#2 0#12 (indexOfReg reg)) v :: rest →
      step s = .next { s with pending := rest }) ∧
    (∀ v : Word64, s.pending = .hwr (wordAddr 0#2 0#12 (indexOfReg .cmd)) v :: rest →
      step s = issue (v.extractLsb' 0 32) { s with pending := rest })

/-- 20_memory R56: a read of the table returns the entry, an unsigned 16-bit number in a zero-extended word; a write of
it is ignored and sets no ERR bit. -/
def Obligations.TableSpaceAccess : Prop :=
  ∀ (s : State) (r c : Nat) (hr : r < 8) (hc : c < 8) (rest : List Transaction),
    (s.pending = .hrd (wordAddr 3#2 (BitVec.ofNat 12 r) (BitVec.ofNat 12 c)) :: rest →
      step s = .next { s with
        pending := rest
        answers := s.answers ++ [((s.config.qtable[r]'hr)[c]'hc).zeroExtend 64] }) ∧
    (∀ v : Word64, s.pending = .hwr (wordAddr 3#2 (BitVec.ofNat 12 r) (BitVec.ofNat 12 c)) v :: rest →
      step s = .next { s with pending := rest })

/-- 10_state R28: the fields of CAP on a valid instance. -/
def Obligations.CapHoldsMaxDimAndMode : Prop :=
  ∀ c : Config, c.Valid →
    (capWord c).toNat % 2 ^ 12 = c.maxDim ∧ (capWord c).toNat / 2 ^ 12 % 16 = 0 ∧
    (capWord c).toNat / 2 ^ 16 % 2 = (if c.roundMode = .halfAway then 0 else 1) ∧ (capWord c).toNat / 2 ^ 17 = 0

/-- 20_memory R57: what a hole is; a read of one returns 0, a write of one changes nothing, either sets E_ADDR, and
neither changes STATUS. -/
def Obligations.HoleAccessIsFlagged : Prop :=
  ∀ (s : State) (a : Addr) (rest : List Transaction),
    let space := a.toNat / 2 ^ 24
    let r := a.toNat / 2 ^ 12 % 4096
    let c := a.toNat % 4096
    (space = 0 ∧ (r ≠ 0 ∨ 4 < c) ∨ (space = 1 ∨ space = 2) ∧ (s.config.maxDim ≤ r ∨ s.config.maxDim ≤ c) ∨
      space = 3 ∧ (8 ≤ r ∨ 8 ≤ c)) →
    (s.pending = .hrd a :: rest →
      step s = .next { s with pending := rest, err := s.err ||| 0x8#32, answers := s.answers ++ [0#64] }) ∧
    (∀ v, s.pending = .hwr a v :: rest → step s = .next { s with pending := rest, err := s.err ||| 0x8#32 })

/-- 20_memory R52 (as a platform exposes bytes): the byte at the lowest address holds bits 7:0, and the eight bytes make
the word again; a byte address translates back exactly when it is a multiple of 8 from the base inside the map. The
refusal of every other byte address is the model's choice after 93 U14 (log entry 18). -/
def Obligations.PlatformBytesAreLittleEndian : Prop :=
  (∀ w : Word64, wordOfBytes (bytesOfWord w) = w) ∧
  (∀ (w : Word64) (k : Nat) (hk : k < 8), ((bytesOfWord w)[k]'hk).toNat = w.toNat / 2 ^ (8 * k) % 256) ∧
  (∀ (base : Nat) (a : Addr), platformWordAddr base (platformByteAddr base a) = .ok a) ∧
  ∀ (base p : Nat), (∀ a : Addr, p ≠ base + 8 * a.toNat) → platformWordAddr base p = .error .platformByteAddress

/-! ### Reset -/

/-- 70_reset_and_hazards R170, 10_state R33: the reset event zeroes STATUS, ERR and LASTCMD, makes every cell of both
banks UNDEF, and keeps the constants. The host's own lists are as before but for the move itself (log entry 6). -/
def Obligations.ResetEventRestoresResetState : Prop :=
  ∀ (s : State) (rest : List Transaction), s.pending = .reset :: rest →
    ∃ t, step s = .next t ∧ t.status = 0 ∧ t.err = 0 ∧ t.lastCmd = 0 ∧ (∀ b r c, t.cell b r c = none) ∧
      t.config = s.config ∧ capWord t.config = capWord s.config ∧
      t = { State.resetOf s.config with pending := rest, answers := s.answers }

/-- 10_state R33: the registers and the banks right after reset, for every instance and for `State.reset`. -/
def Obligations.ResetStateHasResetValues : Prop :=
  (∀ c : Config, (State.resetOf c).status = 0 ∧ (State.resetOf c).err = 0 ∧ (State.resetOf c).lastCmd = 0 ∧
    (State.resetOf c).config = c ∧ ∀ b r k, (State.resetOf c).cell b r k = none) ∧
  State.reset = State.resetOf Config.initial

/-! ### Invariants and rules of the whole machine -/

/-- 10_state R20 to R28, R33: the state right after reset meets the invariant, for every valid instance and for
`State.reset`. -/
def Obligations.ResetStateMeetsInvariant : Prop :=
  (∀ c : Config, c.Valid → (State.resetOf c).Inv) ∧ State.reset.Inv

/-- 10_state R22, R25 to R27, R34: every step from every state that meets the invariant leads to one that meets it. -/
def Obligations.StepKeepsInvariant : Prop := ∀ s t : State, s.Inv → step s = .next t → t.Inv

/-- 10_state R34, R23, R28: no step changes the instance's constants. -/
def Obligations.ConfigurationNeverChanges : Prop := ∀ s t : State, step s = .next t → t.config = s.config

/-- 10_state R26: a bit of ERR, once 1, stays 1 until reset. -/
def Obligations.ErrBitsAreSticky : Prop :=
  ∀ (s t : State) (k : Nat), step s = .next t → s.pending.head? ≠ some .reset →
    s.err.getLsbD k = true → t.err.getLsbD k = true

/-- 10_state R25: after any CMD write exactly one of DONE and REFUSED is 1, every reserved bit is 0, and DONE says that
the word was legal. -/
def Obligations.StatusReportsLastCommandWrite : Prop :=
  ∀ (s t : State) (v : Word64) (rest : List Transaction),
    s.pending = .hwr cmdAddr v :: rest → step s = .next t →
    (t.status.getLsbD 0 = true ↔ causes s.config.maxDim (v.extractLsb' 0 32) = []) ∧
    (t.status.getLsbD 1 = true ↔ causes s.config.maxDim (v.extractLsb' 0 32) ≠ []) ∧
    t.status.toNat < 4

/-- 10_state R25, R27: STATUS and LASTCMD change only by a CMD write or a reset, and LASTCMD only to the word of a legal
one. -/
def Obligations.OnlyCommandWritesTouchStatus : Prop :=
  ∀ s t : State, step s = .next t → s.pending.head? ≠ some .reset →
    ((∀ v, s.pending.head? ≠ some (.hwr cmdAddr v)) → t.status = s.status ∧ t.lastCmd = s.lastCmd) ∧
    (∀ v, s.pending.head? = some (.hwr cmdAddr v) → t.lastCmd ≠ s.lastCmd →
      t.lastCmd = v.extractLsb' 0 32 ∧ causes s.config.maxDim (v.extractLsb' 0 32) = [])

/-- 10_state R22: a cell that holds a value holds one until reset. -/
def Obligations.WrittenCellsStayWritten : Prop :=
  ∀ (s t : State) (b : Bank) (r c : Nat), c < 4096 → step s = .next t →
    s.pending.head? ≠ some .reset → (s.cell b r c).isSome = true → (t.cell b r c).isSome = true

/-- 70_reset_and_hazards R172, R175: the only way a run goes wrong is the use of an UNDEF cell, and no step is refused by
the model. -/
def Obligations.OnlyUndefCellsStopARun : Prop :=
  ∀ s : State,
    (∀ f, step s = .fault f →
      ∃ b r c, (f = .undefSource b r c ∨ f = .undefRead b r c) ∧ s.cell b r c = none) ∧
    ∀ q, step s ≠ .refused q

/-! ### Binary64 arithmetic -/

/-- 43_numerics R125: the value and the kind of a word from its sign, exponent and fraction fields. -/
def Obligations.WordValueFollowsLayout : Prop :=
  ∀ w : F64,
    let sign : ℚ := if w.getLsbD 63 then -1 else 1
    let e : Nat := w.toNat / 2 ^ 52 % 2048
    let f : Nat := w.toNat % 2 ^ 52
    (1 ≤ e → e ≤ 2046 →
      isFinite w = true ∧ toRat w = sign * (2 : ℚ) ^ ((e : ℤ) - 1023) * (1 + f * (2 : ℚ) ^ (-52 : ℤ))) ∧
    (e = 0 → isFinite w = true ∧ toRat w = sign * (2 : ℚ) ^ (-1022 : ℤ) * (f * (2 : ℚ) ^ (-52 : ℤ))) ∧
    (isZero w = true ↔ e = 0 ∧ f = 0) ∧ (isInf w = true ↔ e = 2047 ∧ f = 0) ∧ (isNaN w = true ↔ e = 2047 ∧ f ≠ 0)

/-- 43_numerics R126: each basic operation on finite operands is the exact result rounded once, ties to even, with
overflow to Inf. -/
def Obligations.BasicOperationsRoundOnce : Prop :=
  ∀ a b : F64, isFinite a = true → isFinite b = true →
    RoundsTo (toRat a + toRat b) (fadd a b) ∧ RoundsTo (toRat a - toRat b) (fsub a b) ∧
    RoundsTo (toRat a * toRat b) (fmul a b) ∧ (isZero b = false → RoundsTo (toRat a / toRat b) (fdiv a b))

/-- 43_numerics R127: every integer below 2^53 is converted exactly, and so is every integer the hardware converts; the
literals 1.0 and 2.0 are exact. -/
def Obligations.IntegersConvertExactly : Prop :=
  (∀ n : Nat, n < 2 ^ 53 → isFinite (cvt n) = true ∧ toRat (cvt n) = n ∧ fsign (cvt n) = false) ∧
  (∀ d i : Nat, d ≤ 4095 → i < d → i < 2 ^ 53 ∧ 2 * i + 1 < 2 ^ 53 ∧ d < 2 ^ 53 ∧ 2 * d < 2 ^ 53) ∧
  (∀ e : BitVec 16, e.toNat < 2 ^ 53) ∧ toRat fone = 1 ∧ toRat ftwo = 2

/-- 43_numerics R129: the square root of a finite positive value is the exact root rounded to nearest. -/
def Obligations.SquareRootIsNearest : Prop :=
  ∀ a : F64, isFinite a = true → isZero a = false → fsign a = false →
    IsNearestEvenReal (√(toReal a)) (fsqrt a)

/-- 43_numerics R130: what may be assumed of COS: 1.0 at +0.0, within [-1.0, 1.0] on finite arguments, within COS_ERR of
the exact cosine on the arguments it is applied to. That COS_ERR is the least such bound is the model's choice (log
entry 9). -/
def Obligations.CosineHasItsStatedProperties : Prop :=
  cosine fzero = fone ∧
  (∀ a : F64, isFinite a = true → isFinite (cosine a) = true ∧ |toRat (cosine a)| ≤ 1) ∧
  ∀ k i d : Nat, k < d → i < d → d ≤ 4095 →
    |toReal (cosine (arg k i d)) - Real.cos (toReal (arg k i d))| ≤ cosErr

/-- 43_numerics R132: for frequency 0 the argument is +0.0 and the factor is 1.0 exactly. -/
def Obligations.ZeroFrequencyFactorIsOne : Prop :=
  ∀ i d : Nat, i < d → d ≤ 4095 → arg 0 i d = fzero ∧ ck cosine 0 i d = fone

/-- 43_numerics R133: a NaN operand gives a NaN, and so does an invalid operation; a stored NaN is a NaN whatever its
free bits. -/
def Obligations.NaNRules : Prop :=
  (∀ a b : F64, isNaN a = true ∨ isNaN b = true →
    isNaN (fadd a b) = true ∧ isNaN (fsub a b) = true ∧ isNaN (fmul a b) = true ∧ isNaN (fdiv a b) = true) ∧
  (∀ a b : F64, isInf a = true → isInf b = true → fsign a ≠ fsign b → isNaN (fadd a b) = true) ∧
  (∀ a b : F64, isZero a = true → isInf b = true → isNaN (fmul a b) = true ∧ isNaN (fmul b a) = true) ∧
  (∀ a b : F64, isInf a = true → isInf b = true → isNaN (fdiv a b) = true) ∧
  (∀ a b : F64, isZero a = true → isZero b = true → isNaN (fdiv a b) = true) ∧
  (∀ a : F64, isNaN a = true → isNaN (cosine a) = true ∧ isNaN (fsqrt a) = true ∧ ∀ mode, isNaN (rnd mode a) = true) ∧
  ∀ draw x : F64, isNaN x = true → isNaN (storeResult draw x) = true

/-- 43_numerics R134: operands that are Inf. -/
def Obligations.InfinityRules : Prop :=
  ∀ a b : F64, isInf a = true → isFinite b = true →
    fadd a b = a ∧ fadd b a = a ∧
    (isZero b = false →
      fmul a b = pack (fsign a != fsign b) infMag ∧ fmul b a = pack (fsign a != fsign b) infMag ∧
      fdiv a b = pack (fsign a != fsign b) infMag)

/-- 43_numerics R136: the sign rules, of zero results too. -/
def Obligations.SignRules : Prop :=
  (∀ a b : F64, isNaN (fmul a b) = false → fsign (fmul a b) = (fsign a != fsign b)) ∧
  (∀ a b : F64, isNaN (fdiv a b) = false → fsign (fdiv a b) = (fsign a != fsign b)) ∧
  (∀ x : F64, isFinite x = true → fadd x (fneg x) = 0x0000000000000000#64) ∧
  fadd 0x0000000000000000#64 0x8000000000000000#64 = 0x0000000000000000#64 ∧
  fadd 0x8000000000000000#64 0x8000000000000000#64 = 0x8000000000000000#64

/-- 43_numerics R136: a grid of zeros of either sign transforms to all +0.0, forward and inverse. -/
def Obligations.ZeroGridTransformsToPlusZero : Prop :=
  ∀ (n m : Nat) (S : Window), n ≤ 4095 → m ≤ 4095 →
    (∀ x, x < n → ∀ y, y < m → isZero (cellOf S x y) = true) →
    ∀ u, u < n → ∀ v, v < m → fdctCell cosine n m S u v = fzero ∧ idctCell cosine n m S u v = fzero

/-- 40_fdct R90, 42_idct R115, corner cases: a NaN in the source window makes every result cell a NaN. -/
def Obligations.NaNCellSpoilsEveryResult : Prop :=
  ∀ (n m : Nat) (S : Window) (x y : Nat), x < n → y < m → isNaN (cellOf S x y) = true →
    ∀ u v : Nat, isNaN (fdctCell cosine n m S u v) = true ∧ isNaN (idctCell cosine n m S u v) = true

/-- 40_fdct R90, 42_idct R115, corner case N = M = 1: the cell itself, but -0.0 becomes +0.0 and a NaN some NaN. -/
def Obligations.OneCellTransformIsTheCell : Prop :=
  ∀ S : Window,
    let a := cellOf S 0 0
    (isZero a = true → fdctCell cosine 1 1 S 0 0 = fzero ∧ idctCell cosine 1 1 S 0 0 = fzero) ∧
    (isZero a = false → isNaN a = false → fdctCell cosine 1 1 S 0 0 = a ∧ idctCell cosine 1 1 S 0 0 = a) ∧
    (isNaN a = true → isNaN (fdctCell cosine 1 1 S 0 0) = true ∧ isNaN (idctCell cosine 1 1 S 0 0) = true)

/-! ### The quantizer's rounding -/

/-- 41_quant R103: RND in full, for both modes; for |q| ≥ 2^52 it is the identity. -/
def Obligations.RoundingFunction : Prop :=
  ∀ (mode : RoundMode) (q : F64),
    (isNaN q = true → isNaN (rnd mode q) = true) ∧
    (isInf q = true ∨ isZero q = true → rnd mode q = q) ∧
    (isFinite q = true → isZero q = false →
      let n := ⌊|toRat q|⌋
      let f := |toRat q| - n
      isFinite (rnd mode q) = true ∧ fsign (rnd mode q) = fsign q ∧
      (f < 1 / 2 → |toRat (rnd mode q)| = n) ∧ (1 / 2 < f → |toRat (rnd mode q)| = n + 1) ∧
      (f = 1 / 2 → mode = .halfAway → |toRat (rnd mode q)| = n + 1) ∧
      (f = 1 / 2 → mode = .halfEven → |toRat (rnd mode q)| = if n % 2 = 0 then (n : ℚ) else n + 1) ∧
      (2 ^ 52 ≤ |toRat q| → rnd mode q = q))

/-- 41_quant R106 item 1: a coefficient that is an exact integer multiple of its entry gives that integer. -/
def Obligations.QuantRecoversExactMultiplier : Prop :=
  ∀ (mode : RoundMode) (entry : BitVec 16) (c : F64) (k : ℤ), 1 ≤ entry.toNat → isFinite c = true →
    toRat c = k * entry.toNat → |k * (entry.toNat : ℤ)| < 2 ^ 53 →
    isFinite (quantCell mode entry c) = true ∧ toRat (quantCell mode entry c) = k

/-- 41_quant R101, R102, 43_numerics R137: where the division is exact, level F of the quantizer is level R, in both
modes. -/
def Obligations.QuantMatchesLevelR : Prop :=
  ∀ (cfg : Config) (C : Window) (i j : Nat), 1 ≤ (cfg.entry i j).toNat → isFinite (cellOf C i j) = true →
    toRat (fdiv (cellOf C i j) (cvt (cfg.entry i j).toNat)) = toRat (cellOf C i j) / (cfg.entry i j).toNat →
    toReal (quantResult cfg C i j) = quantR cfg (fun r c => toReal (cellOf C r c)) i j

/-- 43_numerics R137, 41_quant R102: on every valid instance, in both modes, a finite result of QUANT at level F is the
level-R value unless the division rounds onto or across a half-integer. -/
def Obligations.QuantAgreesWithLevelR : Prop :=
  ∀ c : Config, c.Valid → QuantAgrees c fun _ _ => quantResult c

/-- 41_quant R100, R105: no overflow and no clamp: a finite coefficient gives a finite, integral result of the same
sign, whatever its magnitude. -/
def Obligations.QuantOfFiniteIsFiniteInteger : Prop :=
  ∀ (mode : RoundMode) (entry : BitVec 16) (c : F64), 1 ≤ entry.toNat → isFinite c = true →
    isFinite (quantCell mode entry c) = true ∧ (∃ k : ℤ, toRat (quantCell mode entry c) = k) ∧
    fsign (quantCell mode entry c) = fsign c

/-! ### Level R -/

/-- 40_fdct R93 items 1 and 4: FDCT_R is linear, and its (0, 0) coefficient is the sum of the samples over √(N·M). -/
def Obligations.ForwardIsLinearWithSumAtOrigin : Prop :=
  (∀ (n m : ℕ) (a b : ℝ) (S S' : ℕ → ℕ → ℝ) (u v : ℕ),
    fdctR n m (fun x y => a * S x y + b * S' x y) u v = a * fdctR n m S u v + b * fdctR n m S' u v) ∧
  ∀ (n m : ℕ) (S : ℕ → ℕ → ℝ),
    fdctR n m S 0 0 = (∑ x ∈ Finset.range n, ∑ y ∈ Finset.range m, S x y) / √((n : ℝ) * m)

/-- 40_fdct R93 item 3: a constant grid has the single coefficient k·√(N·M) at (0, 0). -/
def Obligations.ConstantGridHasOneCoefficient : Prop :=
  ∀ (n m : ℕ) (k : ℝ) (u v : ℕ), u < n → v < m →
    fdctR n m (fun _ _ => k) u v = if u = 0 ∧ v = 0 then k * √((n : ℝ) * m) else 0

/-- 42_idct R118: at level R the inverse transform undoes the forward transform and the forward transform undoes the
inverse, on the whole grid. -/
def Obligations.InverseUndoesForward : Prop :=
  ∀ (n m : ℕ) (S : ℕ → ℕ → ℝ) (x y : ℕ), x < n → y < m →
    idctR n m (fdctR n m S) x y = S x y ∧ fdctR n m (idctR n m S) x y = S x y

/-- 42_idct R119: a grid whose only coefficient is C(0,0) = c is the constant grid c/√(N·M). -/
def Obligations.OriginCoefficientGivesConstantGrid : Prop :=
  ∀ (n m : ℕ) (c : ℝ) (x y : ℕ), x < n → y < m →
    idctR n m (fun u v => if u = 0 ∧ v = 0 then c else 0) x y = c / √((n : ℝ) * m)
end

