-- ==== Sys2Proof/Laws/State.lean ====
section
/-! SUPPORT. One lemma per field per update of the state, so that no later proof unfolds a record update. -/

namespace Sys2Proof.Machine

section Refuse
variable (cs : List Cause) (s : State)
@[simp] theorem refuse_config : (refuse cs s).config = s.config := rfl
@[simp] theorem refuse_mem : (refuse cs s).mem = s.mem := rfl
@[simp] theorem refuse_status : (refuse cs s).status = statusRefused := rfl
@[simp] theorem refuse_err : (refuse cs s).err = errWith cs s.err := rfl
@[simp] theorem refuse_lastCmd : (refuse cs s).lastCmd = s.lastCmd := rfl
@[simp] theorem refuse_pending : (refuse cs s).pending = s.pending := rfl
@[simp] theorem refuse_answers : (refuse cs s).answers = s.answers := rfl
end Refuse

section Accept
variable (w : Word32) (s : State)
@[simp] theorem accept_config : (accept w s).config = s.config := rfl
@[simp] theorem accept_mem : (accept w s).mem = s.mem := rfl
@[simp] theorem accept_status : (accept w s).status = statusDone := rfl
@[simp] theorem accept_err : (accept w s).err = s.err := rfl
@[simp] theorem accept_lastCmd : (accept w s).lastCmd = w := rfl
@[simp] theorem accept_pending : (accept w s).pending = s.pending := rfl
@[simp] theorem accept_answers : (accept w s).answers = s.answers := rfl
end Accept

section FlagHole
variable (s : State)
@[simp] theorem flagHole_config : (flagHole s).config = s.config := rfl
@[simp] theorem flagHole_mem : (flagHole s).mem = s.mem := rfl
@[simp] theorem flagHole_status : (flagHole s).status = s.status := rfl
@[simp] theorem flagHole_err : (flagHole s).err = errWith [.addr] s.err := rfl
@[simp] theorem flagHole_lastCmd : (flagHole s).lastCmd = s.lastCmd := rfl
@[simp] theorem flagHole_pending : (flagHole s).pending = s.pending := rfl
@[simp] theorem flagHole_answers : (flagHole s).answers = s.answers := rfl
end FlagHole

section Answer
variable (v : Word64) (s : State)
@[simp] theorem answer_config : (answer v s).config = s.config := rfl
@[simp] theorem answer_mem : (answer v s).mem = s.mem := rfl
@[simp] theorem answer_status : (answer v s).status = s.status := rfl
@[simp] theorem answer_err : (answer v s).err = s.err := rfl
@[simp] theorem answer_lastCmd : (answer v s).lastCmd = s.lastCmd := rfl
@[simp] theorem answer_pending : (answer v s).pending = s.pending := rfl
@[simp] theorem answer_answers : (answer v s).answers = s.answers ++ [v] := rfl
end Answer

section SetCell
variable (b : Bank) (r c : Nat) (v : F64) (s : State)
@[simp] theorem setCell_config : (s.setCell b r c v).config = s.config := rfl
@[simp] theorem setCell_mem : (s.setCell b r c v).mem = s.mem.write b r c v := rfl
@[simp] theorem setCell_status : (s.setCell b r c v).status = s.status := rfl
@[simp] theorem setCell_err : (s.setCell b r c v).err = s.err := rfl
@[simp] theorem setCell_lastCmd : (s.setCell b r c v).lastCmd = s.lastCmd := rfl
@[simp] theorem setCell_pending : (s.setCell b r c v).pending = s.pending := rfl
@[simp] theorem setCell_answers : (s.setCell b r c v).answers = s.answers := rfl
end SetCell

section Reset
variable (s : State)
@[simp] theorem resetEvent_config : (resetEvent s).config = s.config := rfl
@[simp] theorem resetEvent_mem : (resetEvent s).mem = { ga := [], gb := [] } := rfl
@[simp] theorem resetEvent_status : (resetEvent s).status = 0 := rfl
@[simp] theorem resetEvent_err : (resetEvent s).err = 0 := rfl
@[simp] theorem resetEvent_lastCmd : (resetEvent s).lastCmd = 0 := rfl
@[simp] theorem resetEvent_pending : (resetEvent s).pending = s.pending := rfl
@[simp] theorem resetEvent_answers : (resetEvent s).answers = s.answers := rfl
end Reset

section Mem
variable (s : State) (mem : Memory)
theorem cell_eq_read (b : Bank) (r c : Nat) : s.cell b r c = s.mem.read b r c := rfl
@[simp] theorem cell_with_mem (b : Bank) (r c : Nat) :
    ({ s with mem := mem } : State).cell b r c = mem.read b r c := rfl
@[simp] theorem accept_cell (w : Word32) (b : Bank) (r c : Nat) : (accept w s).cell b r c = s.cell b r c := rfl
@[simp] theorem refuse_cell (cs : List Cause) (b : Bank) (r c : Nat) :
    (refuse cs s).cell b r c = s.cell b r c := rfl
@[simp] theorem answer_cell (v : Word64) (b : Bank) (r c : Nat) : (answer v s).cell b r c = s.cell b r c := rfl
@[simp] theorem flagHole_cell (b : Bank) (r c : Nat) : (flagHole s).cell b r c = s.cell b r c := rfl
end Mem

end Sys2Proof.Machine
end

