-- ==== Sys2Proof/Laws/Address.lean ====
section
/-! SUPPORT. What stands at a word address built from its fields (20_memory R50, R57). -/

namespace Sys2Proof.Machine

/-- The three fields of a built address, as numbers. -/
theorem fields_wordAddr (sp : BitVec 2) (r c : BitVec 12) :
    spaceField (wordAddr sp r c) = sp ∧ rowField (wordAddr sp r c) = r ∧ colField (wordAddr sp r c) = c := by
  have h : (wordAddr sp r c).toNat = (sp.toNat <<< 12 + r.toNat) <<< 12 + c.toNat := by
    unfold wordAddr
    rw [BitVec.toNat_append, BitVec.toNat_append, ← Nat.shiftLeft_add_eq_or_of_lt r.isLt,
      ← Nat.shiftLeft_add_eq_or_of_lt c.isLt]
  have := sp.isLt; have := r.isLt; have := c.isLt
  refine ⟨?_, ?_, ?_⟩ <;> apply BitVec.eq_of_toNat_eq <;>
    simp only [spaceField, rowField, colField, BitVec.extractLsb'_toNat, Nat.shiftRight_eq_div_pow, h,
      Nat.shiftLeft_eq] <;> omega

/-- A cell below MAXDIM in both indices. -/
theorem place_cell (maxDim : Nat) (b : Bank) {r c : BitVec 12} (hr : r.toNat < maxDim) (hc : c.toNat < maxDim) :
    place maxDim (wordAddr (bankSpace b) r c) = .cell b r.toNat c.toNat := by
  obtain ⟨h1, h2, h3⟩ := fields_wordAddr (bankSpace b) r c
  unfold place
  rw [h1, h2, h3]
  cases b <;> simp [bankSpace, gridPlace, hr, hc]

/-- A register. -/
theorem place_reg (maxDim : Nat) (reg : RegName) :
    place maxDim (wordAddr 0#2 0#12 (indexOfReg reg)) = .reg reg := by
  obtain ⟨h1, h2, h3⟩ := fields_wordAddr 0#2 0#12 (indexOfReg reg)
  unfold place
  rw [h1, h2, h3]
  cases reg <;> rfl

/-- A table entry. -/
theorem place_table (maxDim : Nat) {r c : BitVec 12} (hr : r.toNat < 8) (hc : c.toNat < 8) :
    place maxDim (wordAddr 3#2 r c) = .table r.toNat c.toNat := by
  obtain ⟨h1, h2, h3⟩ := fields_wordAddr 3#2 r c
  unfold place
  rw [h1, h2, h3]
  simp [hr, hc]

/-- CMD is at address 0. -/
@[simp] theorem place_cmdAddr (maxDim : Nat) : place maxDim cmdAddr = .reg .cmd := rfl

end Sys2Proof.Machine
end

