-- ==== Sys2Proof/Laws/Rounding.lean ====
section
/-! SUPPORT. What `roundMag` does, said once: it answers the magnitude nearest the exact fraction, ties to the even one,
and Inf exactly from the half-way point above the largest finite value on (43_numerics R126, R134). -/

namespace Sys2Proof.Machine

theorem unitsPerOne_pos : 0 < unitsPerOne := by
  unfold unitsPerOne
  positivity

/-- The integer nearest num/d, ties to even. -/
def nearestQuot (num d : Nat) : Nat :=
  if 2 * (num % d) < d then num / d else if d < 2 * (num % d) then num / d + 1 else num / d + num / d % 2

/-- No integer is nearer to num/d, and one equally near leaves an even choice. -/
theorem nearestQuot_spec (num : Nat) {d : Nat} (hd : 0 < d) (j : ℤ) :
    |(nearestQuot num d : ℤ) * d - num| ≤ |j * d - num| ∧
      (|(nearestQuot num d : ℤ) * d - num| = |j * d - num| → j ≠ nearestQuot num d → nearestQuot num d % 2 = 0) := by
  have hr : num % d < d := Nat.mod_lt _ hd
  have hnum : (num : ℤ) = (num / d : ℕ) * (d : ℤ) + (num % d : ℕ) := by
    have := Nat.div_add_mod num d
    rw [mul_comm] at this
    exact_mod_cast this.symm
  generalize hq : num / d = q at *
  generalize hrr : num % d = r at *
  have hdist : ∀ t : ℤ, ((q : ℤ) + t) * d - num = t * d - r := fun t => by rw [hnum]; ring
  obtain ⟨t, rfl⟩ : ∃ t : ℤ, j = q + t := ⟨j - q, by ring⟩
  have hd' : (0 : ℤ) < d := by exact_mod_cast hd
  have hlow : t ≤ -1 → t * d ≤ -(d : ℤ) := fun h => by nlinarith
  have hhigh : 2 ≤ t → 2 * (d : ℤ) ≤ t * d := fun h => by nlinarith
  have h1 : t = 1 → t * (d : ℤ) = d := fun h => by rw [h, one_mul]
  have h0 : t = 0 → t * (d : ℤ) = 0 := fun h => by rw [h, zero_mul]
  rw [hdist t]
  unfold nearestQuot
  rw [hq, hrr]
  generalize t * (d : ℤ) = td at *
  have hsame : ((q : ℕ) : ℤ) * d - num = -(r : ℤ) := by have := hdist 0; simpa using this
  have hnext : ((q + 1 : ℕ) : ℤ) * d - num = d - r := by have := hdist 1; push_cast; simpa using this
  split
  · rw [hsame, abs_neg, Nat.abs_cast]
    constructor
    · rcases abs_cases (td - (r : ℤ)) with h | h <;> omega
    · intro he hne
      exfalso
      rcases abs_cases (td - (r : ℤ)) with h | h <;> omega
  · split
    · rw [hnext]
      constructor
      · rcases abs_cases (td - (r : ℤ)) with h | h <;> rcases abs_cases ((d : ℤ) - r) with h' | h' <;> omega
      · intro he hne
        exfalso
        rcases abs_cases (td - (r : ℤ)) with h | h <;> rcases abs_cases ((d : ℤ) - r) with h' | h' <;> omega
    · refine ⟨?_, fun _ _ => by omega⟩
      rcases Nat.mod_two_eq_zero_or_one q with hpar | hpar
      · rw [hpar, Nat.add_zero, hsame, abs_neg, Nat.abs_cast]
        rcases abs_cases (td - (r : ℤ)) with h | h <;> omega
      · rw [hpar, hnext]
        rcases abs_cases (td - (r : ℤ)) with h | h <;> rcases abs_cases ((d : ℤ) - r) with h' | h' <;> omega

/-! ### The magnitudes as numbers of units -/

/-- A magnitude of exponent k + 1 (or a subnormal one, k = 0) built from its integer n of spacing 2^k. -/
theorem magUnits_of_scaled {k n : Nat} (hn : n ≤ 2 ^ 53) (hk : k = 0 ∨ 2 ^ 52 ≤ n) :
    magUnits (k * 2 ^ 52 + n) = n * 2 ^ k := by
  unfold magUnits
  by_cases hlt : k * 2 ^ 52 + n < 2 ^ 52
  · have hk0 : k = 0 := by omega
    subst hk0
    simp at hlt ⊢
    omega
  · rw [if_neg hlt]
    have hge : 2 ^ 52 ≤ n := by omega
    rcases Nat.lt_or_ge n (2 ^ 53) with hn' | hn'
    · have h1 : (k * 2 ^ 52 + n) % 2 ^ 52 = n - 2 ^ 52 := by omega
      have h2 : (k * 2 ^ 52 + n) / 2 ^ 52 - 1 = k := by omega
      rw [h1, h2, Nat.add_sub_cancel' hge]
    · have hn53 : n = 2 ^ 53 := by omega
      have h1 : (k * 2 ^ 52 + n) % 2 ^ 52 = 0 := by omega
      have h2 : (k * 2 ^ 52 + n) / 2 ^ 52 - 1 = k + 1 := by omega
      rw [h1, h2, hn53, pow_succ]
      ring

/-- Every magnitude of at least 2^52 · 2^k units is a whole number of 2^k units. -/
theorem dvd_magUnits {g k : Nat} (h : 2 ^ 52 * 2 ^ k ≤ magUnits g) : 2 ^ k ∣ magUnits g := by
  unfold magUnits at h ⊢
  split at h
  · rename_i hg
    have : 1 ≤ 2 ^ k := Nat.one_le_two_pow
    exfalso
    nlinarith
  · rename_i hg
    rw [if_neg hg]
    have hf : g % 2 ^ 52 < 2 ^ 52 := Nat.mod_lt _ (by positivity)
    have hlt : 2 ^ 52 * 2 ^ k < 2 ^ 53 * 2 ^ (g / 2 ^ 52 - 1) := by
      refine lt_of_le_of_lt h ?_
      exact Nat.mul_lt_mul_of_pos_right (by omega) (by positivity)
    rw [← pow_add, ← pow_add] at hlt
    have := (Nat.pow_lt_pow_iff_right (by norm_num : 1 < 2)).1 hlt
    exact Dvd.dvd.mul_left (Nat.pow_dvd_pow 2 (by omega)) _

/-- The spacing exponent at num/den. -/
def spacing (num den : Nat) : Nat := (num / den).log2 - 52

theorem roundMag_eq (num den : Nat) : roundMag num den
    = min (spacing num den * 2 ^ 52 + nearestQuot num (den * 2 ^ spacing num den)) infMag := rfl

/-- The exact quotient has at most 53 bits of the spacing, and exactly 53 unless the spacing is one unit. -/
theorem spacing_spec (num : Nat) {den : Nat} (hden : 0 < den) :
    num < 2 ^ 53 * (den * 2 ^ spacing num den) ∧
      (spacing num den = 0 ∨ 2 ^ 52 * (den * 2 ^ spacing num den) ≤ num) := by
  unfold spacing
  set q := num / den with hq
  have hlt : num < (q + 1) * den := by
    have h1 := Nat.div_add_mod num den
    rw [← hq] at h1
    have h2 := Nat.mod_lt num hden
    rw [add_mul, one_mul, mul_comm]
    omega
  have hle : q * den ≤ num := Nat.div_mul_le_self num den
  constructor
  · have hq1 : q + 1 ≤ 2 ^ 53 * 2 ^ (q.log2 - 52) := by
      rw [← pow_add]
      have : q < 2 ^ (q.log2 + 1) := Nat.lt_log2_self
      have : 2 ^ (q.log2 + 1) ≤ 2 ^ (53 + (q.log2 - 52)) := Nat.pow_le_pow_right (by norm_num) (by omega)
      omega
    calc num < (q + 1) * den := hlt
      _ ≤ (2 ^ 53 * 2 ^ (q.log2 - 52)) * den := Nat.mul_le_mul_right _ hq1
      _ = 2 ^ 53 * (den * 2 ^ (q.log2 - 52)) := by ring
  · by_cases hk : q.log2 - 52 = 0
    · exact .inl hk
    · right
      have hq0 : q ≠ 0 := by rintro h; rw [h] at hk; simp at hk
      have : 2 ^ 52 * 2 ^ (q.log2 - 52) ≤ q := by
        rw [← pow_add]
        exact le_trans (Nat.pow_le_pow_right (by norm_num) (by omega)) (Nat.log2_self_le hq0)
      calc 2 ^ 52 * (den * 2 ^ (q.log2 - 52)) = (2 ^ 52 * 2 ^ (q.log2 - 52)) * den := by ring
        _ ≤ q * den := Nat.mul_le_mul_right _ this
        _ ≤ num := hle

theorem nearestQuot_bounds (num : Nat) {d : Nat} (hd : 0 < d) (hlt : num < 2 ^ 53 * d) :
    nearestQuot num d ≤ 2 ^ 53 ∧ (2 ^ 52 * d ≤ num → 2 ^ 52 ≤ nearestQuot num d) := by
  have h1 : num / d < 2 ^ 53 := (Nat.div_lt_iff_lt_mul hd).2 hlt
  have h2 : 2 ^ 52 * d ≤ num → 2 ^ 52 ≤ num / d := fun h => (Nat.le_div_iff_mul_le hd).2 h
  unfold nearestQuot
  refine ⟨by split <;> [omega; split <;> omega], fun h => ?_⟩
  have := h2 h
  split <;> [omega; split <;> omega]

/-- The nearest magnitude: no magnitude is nearer to num/den units than a rounded one that is not Inf, and where one is
equally near the rounded one is even. -/
theorem roundMag_nearest (num : Nat) {den : Nat} (hden : 0 < den) (hfin : roundMag num den < infMag) (g : Nat) :
    |(magUnits (roundMag num den) : ℤ) * den - num| ≤ |(magUnits g : ℤ) * den - num| ∧
      (|(magUnits (roundMag num den) : ℤ) * den - num| = |(magUnits g : ℤ) * den - num| →
        magUnits g ≠ magUnits (roundMag num den) → roundMag num den % 2 = 0) := by
  rw [roundMag_eq] at hfin ⊢
  obtain ⟨hlt, hge⟩ := spacing_spec num hden
  set k := spacing num den with hk
  set d := den * 2 ^ k with hd
  have hdpos : 0 < d := Nat.mul_pos hden (Nat.two_pow_pos k)
  obtain ⟨hn53, hn52⟩ := nearestQuot_bounds num hdpos hlt
  have hspec := nearestQuot_spec num hdpos
  set n := nearestQuot num d with hn
  have hmin : min (k * 2 ^ 52 + n) infMag = k * 2 ^ 52 + n := by
    rcases Nat.le_total (k * 2 ^ 52 + n) infMag with h | h
    · exact Nat.min_eq_left h
    · rw [Nat.min_eq_right h] at hfin; exact absurd hfin (lt_irrefl _)
  rw [hmin]
  have hval : magUnits (k * 2 ^ 52 + n) = n * 2 ^ k :=
    magUnits_of_scaled hn53 (hge.imp id hn52)
  have hvald : (magUnits (k * 2 ^ 52 + n) : ℤ) * den = (n : ℤ) * d := by
    rw [hval, hd]; push_cast; ring
  rw [hvald]
  have hpar : (k * 2 ^ 52 + n) % 2 = n % 2 := by omega
  rw [hpar]
  by_cases hg : 2 ^ k ∣ magUnits g
  · obtain ⟨j, hj⟩ := hg
    have hgd : (magUnits g : ℤ) * den = (j : ℤ) * d := by rw [hj, hd]; push_cast; ring
    rw [hgd]
    refine ⟨(hspec j).1, fun he hne => (hspec j).2 he ?_⟩
    rintro hjn
    apply hne
    rw [hval, hj, mul_comm]
    congr 1
    exact_mod_cast hjn
  · have hk0 : k ≠ 0 := by rintro h; rw [h] at hg; simp at hg
    have hge' : 2 ^ 52 * d ≤ num := hge.resolve_left hk0
    have hsmall : magUnits g < 2 ^ 52 * 2 ^ k := by
      by_contra h
      exact hg (dvd_magUnits (not_lt.1 h))
    have hstrict : |((2 ^ 52 : ℕ) : ℤ) * d - num| < |(magUnits g : ℤ) * den - num| := by
      have h1 : (magUnits g : ℤ) * den < ((2 ^ 52 : ℕ) : ℤ) * d := by
        have : magUnits g * den < 2 ^ 52 * d := by
          calc magUnits g * den < (2 ^ 52 * 2 ^ k) * den := Nat.mul_lt_mul_of_pos_right hsmall hden
            _ = 2 ^ 52 * d := by rw [hd]; ring
        exact_mod_cast this
      have h2 : ((2 ^ 52 : ℕ) : ℤ) * d ≤ num := by exact_mod_cast hge'
      rw [abs_of_nonpos (by omega), abs_of_neg (by omega)]
      omega
    have hle := (hspec ((2 ^ 52 : ℕ) : ℤ)).1
    exact ⟨le_of_lt (lt_of_le_of_lt hle hstrict),
      fun he => absurd (lt_of_le_of_lt hle hstrict) (not_lt.2 he.ge)⟩

/-- A quotient that is not rounded crosses no half-integer. -/
theorem not_roundsAcrossHalf_self (q : ℚ) : ¬ RoundsAcrossHalf q q := fun h => h.1 rfl

/-- Two values between the same neighbouring half-integers cross none. -/
theorem not_roundsAcrossHalf_of_between {q q' : ℚ} (k : ℤ) (hl : (k : ℚ) - 1 / 2 < min q q')
    (hu : max q q' < (k : ℚ) + 1 / 2) : ¬ RoundsAcrossHalf q q' := by
  rintro ⟨-, j, hj, hj'⟩
  have h0 : ((k - 1 : ℤ) : ℚ) < j := by push_cast; linarith
  have h1 : ((j : ℤ) : ℚ) < k := by linarith
  have h0' : k - 1 < j := by exact_mod_cast h0
  have h1' : j < k := by exact_mod_cast h1
  omega

end Sys2Proof.Machine
end

