-- ==== Sys2Proof/Laws/Binary64.lean ====
section
/-! SUPPORT. The small lemmas of the binary64 word: its sign and magnitude, its value, and that a magnitude which is
exact already is not changed by rounding. -/

namespace Sys2Proof.Machine

theorem fmag_lt (w : F64) : fmag w < 2 ^ 63 := Nat.mod_lt _ (by positivity)

theorem infMag_lt : infMag < 2 ^ 63 := by decide

theorem toNat_pack (s : Bool) {g : Nat} (hg : g < 2 ^ 63) :
    (pack s g).toNat = (if s then 2 ^ 63 else 0) + g := by
  unfold pack
  rw [BitVec.toNat_ofNat, Nat.mod_eq_of_lt]
  split <;> omega

theorem fmag_pack (s : Bool) {g : Nat} (hg : g < 2 ^ 63) : fmag (pack s g) = g := by
  unfold fmag
  rw [toNat_pack s hg]
  split <;> omega

theorem fsign_eq_decide (w : F64) : fsign w = decide (2 ^ 63 ≤ w.toNat) := by
  unfold fsign
  rw [BitVec.msb_eq_decide]

theorem fsign_pack (s : Bool) {g : Nat} (hg : g < 2 ^ 63) : fsign (pack s g) = s := by
  rw [fsign_eq_decide, toNat_pack s hg]
  cases s <;> simp
  exact hg

/-- A word is its sign and its magnitude. -/
theorem pack_fsign_fmag (w : F64) : pack (fsign w) (fmag w) = w := by
  apply BitVec.eq_of_toNat_eq
  rw [toNat_pack _ (fmag_lt w), fsign_eq_decide]
  have := w.isLt
  unfold fmag
  by_cases h : 2 ^ 63 ≤ w.toNat
  · rw [decide_eq_true h, if_pos rfl]; omega
  · rw [decide_eq_false h, if_neg (by decide)]; omega

/-- Every word is exactly one of: a NaN, ±Inf, finite. -/
theorem class_cases (w : F64) : (isNaN w = true ∧ isInf w = false ∧ isFinite w = false) ∨
    (isNaN w = false ∧ isInf w = true ∧ isFinite w = false) ∨
    (isNaN w = false ∧ isInf w = false ∧ isFinite w = true) := by
  unfold isNaN isInf isFinite
  rcases Nat.lt_trichotomy (fmag w) infMag with h | h | h
  · exact .inr (.inr ⟨by simp; omega, by simp; omega, by simp; omega⟩)
  · exact .inr (.inl ⟨by simp; omega, by simp; omega, by simp; omega⟩)
  · exact .inl ⟨by simp; omega, by simp; omega, by simp; omega⟩

theorem isNaN_pack (s : Bool) {g : Nat} (hg : g ≤ infMag) : isNaN (pack s g) = false := by
  unfold isNaN
  rw [fmag_pack s (lt_of_le_of_lt hg infMag_lt)]
  simp; omega

theorem isFinite_pack (s : Bool) {g : Nat} (hg : g < infMag) : isFinite (pack s g) = true := by
  unfold isFinite
  rw [fmag_pack s (hg.trans infMag_lt)]
  simpa using hg

theorem roundMag_le (num den : Nat) : roundMag num den ≤ infMag := Nat.min_le_right _ _

theorem rootMag_le (x : Nat) : rootMag x ≤ infMag := Nat.min_le_right _ _

theorem isNaN_qnan : isNaN qnan = true := by decide

theorem isNaN_someNaN (draw : F64) : isNaN (someNaN draw) = true := by
  unfold someNaN
  split
  · assumption
  · exact isNaN_qnan

/-- What is stored is the value itself where it is no NaN. -/
theorem storeResult_of_not_nan (draw : F64) {x : F64} (h : isNaN x = false) : storeResult draw x = x := by
  unfold storeResult
  simp [h]

/-- A NaN stored is some NaN. -/
theorem isNaN_storeResult (draw : F64) {x : F64} (h : isNaN x = true) : isNaN (storeResult draw x) = true := by
  unfold storeResult
  rw [if_pos h]
  exact isNaN_someNaN draw

/-- The value of a packed finite magnitude. -/
theorem toRat_pack (s : Bool) {g : Nat} (hg : g < infMag) :
    toRat (pack s g) = (if s then -1 else 1) * ((magUnits g : ℚ) / unitsPerOne) := by
  unfold toRat signedUnits units
  rw [fsign_pack s (hg.trans infMag_lt), fmag_pack s (hg.trans infMag_lt)]
  generalize unitsPerOne = d
  cases s <;> simp [neg_div]

/-- A larger magnitude is a larger number of units. -/
theorem magUnits_lt_succ (g : Nat) : magUnits g < magUnits (g + 1) := by
  unfold magUnits
  by_cases h1 : g + 1 < 2 ^ 52
  · rw [if_pos h1, if_pos (by omega)]; omega
  · rw [if_neg h1]
    by_cases h2 : g < 2 ^ 52
    · rw [if_pos h2]
      have : 1 ≤ 2 ^ ((g + 1) / 2 ^ 52 - 1) := Nat.one_le_two_pow
      nlinarith [Nat.zero_le ((g + 1) % 2 ^ 52)]
    · rw [if_neg h2]
      by_cases h3 : (g + 1) % 2 ^ 52 = 0
      · have e1 : (g + 1) / 2 ^ 52 - 1 = (g / 2 ^ 52 - 1) + 1 := by omega
        have e2 : g % 2 ^ 52 = 2 ^ 52 - 1 := by omega
        rw [h3, e1, e2, pow_succ 2 (g / 2 ^ 52 - 1)]
        have : 1 ≤ 2 ^ (g / 2 ^ 52 - 1) := Nat.one_le_two_pow
        generalize 2 ^ (g / 2 ^ 52 - 1) = p at this ⊢
        omega
      · have e1 : (g + 1) / 2 ^ 52 = g / 2 ^ 52 := by omega
        have e2 : (g + 1) % 2 ^ 52 = g % 2 ^ 52 + 1 := by omega
        rw [e1, e2]
        exact Nat.mul_lt_mul_of_pos_right (by omega) (by positivity)

theorem magUnits_strictMono : StrictMono magUnits := strictMono_nat_of_lt_succ magUnits_lt_succ

/-- A fraction that is a magnitude already is rounded to that magnitude. -/
theorem roundMag_exact {num den g : Nat} (hden : 0 < den) (hnum : num = magUnits g * den)
    (hfin : roundMag num den < infMag) : roundMag num den = g := by
  have h := (roundMag_nearest num hden hfin g).1
  rw [show ((magUnits g : ℤ) * den - num) = 0 by rw [hnum]; push_cast; ring, abs_zero] at h
  have h0 : (magUnits (roundMag num den) : ℤ) * den = num := by
    have := abs_nonpos_iff.1 h
    omega
  have h1 : magUnits (roundMag num den) * den = magUnits g * den := by
    rw [← hnum]; exact_mod_cast h0
  exact magUnits_strictMono.injective (Nat.eq_of_mul_eq_mul_right hden h1)

end Sys2Proof.Machine
end

