-- ==== Sys2Proof/Laws/Decode.lean ====
section
/-! SUPPORT. The fields of a word that the encoder builds, and what the list of causes says. -/

namespace Sys2Proof

theorem bankOfBit_bitOfBank (b : Bank) : bankOfBit (bitOfBank b) = b := by
  cases b <;> rfl

theorem bitOfBank_bankOfBit (b : BitVec 1) : bitOfBank (bankOfBit b) = b := by
  revert b; decide

/-! ### A built word as a number, and its fields -/

section
variable (op : BitVec 4) (src : Bank) (n m : BitVec 12)

/-- The word as the number the format of R70 makes of its fields. -/
theorem commandWord_toNat : (commandWord op src n m).toNat
    = op.toNat * 2 ^ 28 + (bitOfBank src).toNat * 2 ^ 27 + n.toNat * 2 ^ 12 + m.toNat := by
  unfold commandWord
  simp only [BitVec.toNat_append]
  rw [← Nat.shiftLeft_add_eq_or_of_lt m.isLt, ← Nat.shiftLeft_add_eq_or_of_lt n.isLt,
    ← Nat.shiftLeft_add_eq_or_of_lt (0#3).isLt, ← Nat.shiftLeft_add_eq_or_of_lt (bitOfBank src).isLt]
  simp only [Nat.shiftLeft_eq, BitVec.toNat_ofNat]
  omega

theorem bitOfBank_toNat_lt : (bitOfBank src).toNat < 2 := (bitOfBank src).isLt

theorem opField_commandWord : opField (commandWord op src n m) = op := by
  apply BitVec.eq_of_toNat_eq
  have := bitOfBank_toNat_lt src; have := op.isLt; have := n.isLt; have := m.isLt
  simp only [opField, BitVec.extractLsb'_toNat, commandWord_toNat, Nat.shiftRight_eq_div_pow]
  omega

theorem srcField_commandWord : srcField (commandWord op src n m) = bitOfBank src := by
  apply BitVec.eq_of_toNat_eq
  have := bitOfBank_toNat_lt src; have := op.isLt; have := n.isLt; have := m.isLt
  simp only [srcField, BitVec.extractLsb'_toNat, commandWord_toNat, Nat.shiftRight_eq_div_pow]
  omega

theorem zeroField_commandWord : zeroField (commandWord op src n m) = 0#3 := by
  apply BitVec.eq_of_toNat_eq
  have := bitOfBank_toNat_lt src; have := op.isLt; have := n.isLt; have := m.isLt
  simp only [zeroField, BitVec.extractLsb'_toNat, commandWord_toNat, Nat.shiftRight_eq_div_pow, BitVec.toNat_ofNat]
  omega

theorem nField_commandWord : nField (commandWord op src n m) = n := by
  apply BitVec.eq_of_toNat_eq
  have := bitOfBank_toNat_lt src; have := op.isLt; have := n.isLt; have := m.isLt
  simp only [nField, BitVec.extractLsb'_toNat, commandWord_toNat, Nat.shiftRight_eq_div_pow]
  omega

theorem mField_commandWord : mField (commandWord op src n m) = m := by
  apply BitVec.eq_of_toNat_eq
  have := bitOfBank_toNat_lt src; have := op.isLt; have := n.isLt; have := m.isLt
  simp only [mField, BitVec.extractLsb'_toNat, commandWord_toNat, Nat.shiftRight_eq_div_pow]
  omega

end

/-- A word is its five fields put together. -/
theorem word_toNat_eq_fields (w : Word32) : w.toNat = (opField w).toNat * 2 ^ 28 + (srcField w).toNat * 2 ^ 27
    + (zeroField w).toNat * 2 ^ 24 + (nField w).toNat * 2 ^ 12 + (mField w).toNat := by
  have := w.isLt
  simp only [opField, srcField, zeroField, nField, mField, BitVec.extractLsb'_toNat, Nat.shiftRight_eq_div_pow]
  omega

/-! ### Dimensions and causes -/

theorem dimBad_eq_false {maxDim d : Nat} : dimBad maxDim d = false ↔ 1 ≤ d ∧ d ≤ maxDim := by
  simp [dimBad]
  omega

theorem mem_causes_op {maxDim : Nat} {w : Word32} : Cause.op ∈ causes maxDim w ↔
    ¬ ((opField w).toNat = 1 ∨ (opField w).toNat = 2 ∨ (opField w).toNat = 3) := by
  unfold causes
  split <;> split <;> split <;> simp_all

theorem mem_causes_rsv {maxDim : Nat} {w : Word32} : Cause.rsv ∈ causes maxDim w ↔ zeroField w ≠ 0#3 := by
  unfold causes
  split <;> split <;> split <;> simp_all

theorem mem_causes_dim {maxDim : Nat} {w : Word32} : Cause.dim ∈ causes maxDim w ↔
    dimBad maxDim (nField w).toNat = true ∨ dimBad maxDim (mField w).toNat = true := by
  unfold causes
  split <;> split <;> split <;> simp_all

theorem not_mem_causes_addr {maxDim : Nat} {w : Word32} : Cause.addr ∉ causes maxDim w := by
  unfold causes
  split <;> split <;> split <;> simp_all

/-- The causes of a word the encoder builds from a legal operation: E_DIM alone, where a dimension is out of range. -/
theorem causes_commandWord (maxDim : Nat) (op : BitVec 4) (hop : op.toNat = 1 ∨ op.toNat = 2 ∨ op.toNat = 3)
    (src : Bank) (n m : BitVec 12) : causes maxDim (commandWord op src n m)
      = if dimBad maxDim n.toNat || dimBad maxDim m.toNat then [Cause.dim] else [] := by
  unfold causes
  rw [opField_commandWord, zeroField_commandWord, nField_commandWord, mField_commandWord, if_pos hop]
  rfl

/-- The same of an instruction. -/
theorem causes_encode (maxDim : Nat) (i : Instr) : causes maxDim (encode i)
    = if dimBad maxDim i.rows.toNat || dimBad maxDim i.cols.toNat then [Cause.dim] else [] := by
  cases i <;> exact causes_commandWord _ _ (by decide) _ _ _

/-- An instruction is well formed for an instance exactly when its word is legal there. -/
theorem causes_encode_eq_nil {c : Config} {i : Instr} : causes c.maxDim (encode i) = [] ↔ i.WellFormed c := by
  rw [causes_encode]
  unfold Instr.WellFormed dimInRange
  rw [← dimBad_eq_false, ← dimBad_eq_false]
  cases dimBad c.maxDim i.rows.toNat <;> cases dimBad c.maxDim i.cols.toNat <;> simp

/-- The decoder answers none exactly where the opcode or the reserved bits are wrong. -/
theorem decode_eq_none {w : Word32} : decode w = none ↔
    zeroField w ≠ 0#3 ∨ ¬ ((opField w).toNat = 1 ∨ (opField w).toNat = 2 ∨ (opField w).toNat = 3) := by
  unfold decode
  split
  · split <;> simp_all
  · simp_all

end Sys2Proof
end

