-- ==== Sys2Proof/Laws/Flags.lean ====
section
/-! SUPPORT. What setting ERR bits does (10_state R26). -/

namespace Sys2Proof.Machine

@[simp] theorem errWith_nil (e : Word32) : errWith [] e = e := rfl

@[simp] theorem errWith_cons (c : Cause) (cs : List Cause) (e : Word32) :
    errWith (c :: cs) e = errWith cs (e ||| causeBit c) := rfl

/-- A bit of ERR after recording causes: 1 where it was 1 or where a cause of the list has that bit. -/
theorem errWith_getLsbD (cs : List Cause) (e : Word32) (i : Nat) :
    (errWith cs e).getLsbD i = (e.getLsbD i || cs.any fun c => (causeBit c).getLsbD i) := by
  induction cs generalizing e with
  | nil => simp
  | cons c cs ih => rw [errWith_cons, ih]; simp [Bool.or_assoc]

/-- A bit of ERR that is 1 stays 1. -/
theorem errWith_sticky (cs : List Cause) (e : Word32) (i : Nat) (h : e.getLsbD i = true) :
    (errWith cs e).getLsbD i = true := by
  rw [errWith_getLsbD, h, Bool.true_or]

/-- Recording the same causes twice is recording them once. -/
theorem errWith_idem (cs : List Cause) (e : Word32) : errWith cs (errWith cs e) = errWith cs e := by
  apply BitVec.eq_of_getLsbD_eq
  intro i _
  simp only [errWith_getLsbD]
  cases e.getLsbD i <;> simp

theorem or_lt_sixteen {a b : Word32} (ha : a.toNat < 16) (hb : b.toNat < 16) : (a ||| b).toNat < 16 := by
  rw [BitVec.toNat_or]
  exact Nat.or_lt_two_pow (n := 4) ha hb

/-- The reserved bits of ERR stay 0. -/
theorem errWith_lt (cs : List Cause) {e : Word32} (h : e.toNat < 16) : (errWith cs e).toNat < 16 := by
  induction cs generalizing e with
  | nil => exact h
  | cons c cs ih => exact ih (or_lt_sixteen h (by cases c <;> decide))

end Sys2Proof.Machine
end

