-- ==== Sys2Proof/Laws/Memory.lean ====
section
/-! SUPPORT. What the operations over the banks do: read after write, the canonical form, the whole-window write and
read. -/

namespace Sys2Proof.Machine

/-! ### One bank -/

theorem Grid.get_set (g : Grid) (j : Nat) (x : F64) (i : Nat) :
    Grid.get (Grid.set g j x) i = if i = j then some x else Grid.get g i := by
  induction g with
  | nil => simp [Grid.set, Grid.get]
  | cons e g ih =>
    obtain ⟨k, v⟩ := e
    by_cases hlt : j < k
    · simp only [Grid.set, hlt, if_true, Grid.get]
    · by_cases heq : j = k
      · subst heq
        by_cases hi : i = j <;> simp [Grid.set, Grid.get, hi]
      · by_cases hi : i = k
        · subst hi
          simp [Grid.set, Grid.get, hlt, heq, Ne.symm heq]
        · simp [Grid.set, Grid.get, hlt, heq, hi, ih]

theorem Grid.mem_set (g : Grid) (j : Nat) (x : F64) (e : Nat × F64) (h : e ∈ Grid.set g j x) :
    e = (j, x) ∨ e ∈ g := by
  induction g with
  | nil => simpa [Grid.set] using h
  | cons d g ih =>
    obtain ⟨k, v⟩ := d
    simp only [Grid.set] at h
    split at h
    · simpa using h
    · split at h
      · rcases List.mem_cons.1 h with h | h
        · exact .inl h
        · exact .inr (List.mem_cons_of_mem _ h)
      · rcases List.mem_cons.1 h with h | h
        · exact .inr (h ▸ List.mem_cons_self)
        · exact (ih h).imp id (List.mem_cons_of_mem _)

theorem Grid.set_wf {g : Grid} (h : Grid.wf g) (j : Nat) (x : F64) : Grid.wf (Grid.set g j x) := by
  induction g with
  | nil => simp [Grid.wf, Grid.set]
  | cons e g ih =>
    obtain ⟨k, v⟩ := e
    simp only [Grid.wf, List.map_cons, List.pairwise_cons] at h
    obtain ⟨hk, hg⟩ := h
    simp only [Grid.set]
    split
    · rename_i hlt
      simp only [Grid.wf, List.map_cons, List.pairwise_cons, List.mem_cons]
      refine ⟨?_, hk, hg⟩
      rintro a (rfl | ha)
      · exact hlt
      · exact hlt.trans (hk a ha)
    · split
      · rename_i heq
        subst heq
        simpa only [Grid.wf, List.map_cons, List.pairwise_cons] using ⟨hk, hg⟩
      · rename_i hlt hne
        simp only [Grid.wf, List.map_cons, List.pairwise_cons]
        refine ⟨?_, ih hg⟩
        intro a ha
        obtain ⟨e, he, rfl⟩ := List.mem_map.1 ha
        rcases Grid.mem_set g j x e he with rfl | he
        · exact lt_of_le_of_ne (not_lt.1 hlt) (Ne.symm hne)
        · exact hk _ (List.mem_map_of_mem he)

/-! ### The two banks -/

@[simp] theorem Memory.bank_withBank (m : Memory) (b b' : Bank) (g : Grid) :
    (m.withBank b g).bank b' = if b' = b then g else m.bank b' := by
  cases b <;> cases b' <;> rfl

theorem cellKey_inj {r c r' c' : Nat} (hc : c < 4096) (hc' : c' < 4096) :
    cellKey r c = cellKey r' c' ↔ r = r' ∧ c = c' := by
  unfold cellKey
  omega

/-- A read after a write of one cell: the value at the cell, what was there everywhere else. -/
theorem Memory.read_write (m : Memory) (b : Bank) (r c : Nat) (v : F64) (b' : Bank) (r' c' : Nat)
    (hc : c < 4096) (hc' : c' < 4096) :
    (m.write b r c v).read b' r' c' = if b' = b ∧ r' = r ∧ c' = c then some v else m.read b' r' c' := by
  unfold Memory.write Memory.read
  rw [Memory.bank_withBank]
  by_cases hb : b' = b
  · subst hb
    rw [if_pos rfl, Grid.get_set]
    simp [cellKey_inj hc' hc]
  · simp [hb]

theorem Memory.withBank_wf {m : Memory} (h : Memory.wf m) (b : Bank) {g : Grid} (hg : Grid.wf g) :
    Memory.wf (m.withBank b g) := by
  cases b
  · exact ⟨hg, h.2⟩
  · exact ⟨h.1, hg⟩

theorem Memory.bank_wf {m : Memory} (h : Memory.wf m) (b : Bank) : Grid.wf (m.bank b) := by
  cases b
  · exact h.1
  · exact h.2

theorem Memory.write_wf {m : Memory} (h : Memory.wf m) (b : Bank) (r c : Nat) (v : F64) :
    Memory.wf (m.write b r c v) :=
  Memory.withBank_wf h b (Grid.set_wf (Memory.bank_wf h b) _ _)

theorem Memory.reset_wf (c : Config) : Memory.wf (State.resetOf c).mem := by
  simp [State.resetOf, Memory.wf, Grid.wf]

/-! ### Windows -/

@[simp] theorem mem_windowCells {n m : Nat} {rc : Nat × Nat} : rc ∈ windowCells n m ↔ rc.1 < n ∧ rc.2 < m := by
  obtain ⟨r, c⟩ := rc
  simp [windowCells]

theorem Memory.foldl_write_read (L : List (Nat × Nat)) (hL : ∀ rc ∈ L, rc.2 < 4096) (T : Nat → Nat → F64)
    (b b' : Bank) (r c : Nat) (hc : c < 4096) (m : Memory) :
    (L.foldl (fun m rc => m.write b rc.1 rc.2 (T rc.1 rc.2)) m).read b' r c
      = if b' = b ∧ (r, c) ∈ L then some (T r c) else m.read b' r c := by
  induction L generalizing m with
  | nil => simp
  | cons e L ih =>
    obtain ⟨r0, c0⟩ := e
    rw [List.foldl_cons, ih (fun rc h => hL rc (List.mem_cons_of_mem _ h)),
      Memory.read_write _ _ _ _ _ _ _ _ (hL (r0, c0) List.mem_cons_self) hc]
    by_cases hb : b' = b
    · by_cases hin : (r, c) ∈ L
      · simp [hb, hin]
      · by_cases he : r = r0 ∧ c = c0
        · obtain ⟨rfl, rfl⟩ := he
          simp [hb, hin]
        · have : (r, c) ≠ (r0, c0) := by simpa using he
          simp [hb, hin, he]
    · simp [hb]

/-- The whole-window write: the result inside the window of that bank, what was there everywhere else (20_memory R60). -/
theorem Memory.read_writeWindow (mem : Memory) (b : Bank) {n m : Nat} (hm : m ≤ 4096) (T : Nat → Nat → F64)
    (b' : Bank) (r c : Nat) (hc : c < 4096) :
    (mem.writeWindow b n m T).read b' r c
      = if b' = b ∧ r < n ∧ c < m then some (T r c) else mem.read b' r c := by
  unfold Memory.writeWindow
  rw [Memory.foldl_write_read _ (fun rc h => lt_of_lt_of_le (mem_windowCells.1 h).2 hm) T b b' r c hc]
  simp

theorem Memory.foldl_write_wf (L : List (Nat × Nat)) (T : Nat → Nat → F64) (b : Bank) (m : Memory)
    (h : Memory.wf m) : Memory.wf (L.foldl (fun m rc => m.write b rc.1 rc.2 (T rc.1 rc.2)) m) := by
  induction L generalizing m with
  | nil => exact h
  | cons e L ih => exact ih _ (Memory.write_wf h b _ _ _)

theorem Memory.writeWindow_wf {mem : Memory} (h : Memory.wf mem) (b : Bank) (n m : Nat) (T : Nat → Nat → F64) :
    Memory.wf (mem.writeWindow b n m T) :=
  Memory.foldl_write_wf _ T b mem h

@[simp] theorem Memory.writeWindow_bank_other (mem : Memory) (b b' : Bank) (hb : b' ≠ b) (n m : Nat)
    (T : Nat → Nat → F64) : (mem.writeWindow b n m T).bank b' = mem.bank b' := by
  unfold Memory.writeWindow
  generalize windowCells n m = L
  induction L generalizing mem with
  | nil => rfl
  | cons e L ih => rw [List.foldl_cons, ih]; simp [Memory.write, hb]

/-! ### Cells stay inside MAXDIM × MAXDIM -/

theorem Grid.set_inside {maxDim : Nat} {g : Grid} (h : Grid.inside maxDim g) {r c : Nat} (hr : r < maxDim)
    (hc : c < maxDim) (hc' : c < 4096) (v : F64) : Grid.inside maxDim (Grid.set g (cellKey r c) v) := by
  intro e he
  rcases Grid.mem_set _ _ _ e he with rfl | he
  · unfold cellKey
    constructor <;> omega
  · exact h e he

theorem Memory.write_inside {maxDim : Nat} {m : Memory} (h : ∀ b, Grid.inside maxDim (m.bank b)) (b : Bank)
    {r c : Nat} (hr : r < maxDim) (hc : c < maxDim) (hc' : c < 4096) (v : F64) :
    ∀ b', Grid.inside maxDim ((m.write b r c v).bank b') := by
  intro b'
  unfold Memory.write
  rw [Memory.bank_withBank]
  split
  · exact Grid.set_inside (h b) hr hc hc' v
  · exact h b'

theorem Memory.writeWindow_inside {maxDim : Nat} {mem : Memory} (h : ∀ b, Grid.inside maxDim (mem.bank b)) (b : Bank)
    {n m : Nat} (hn : n ≤ maxDim) (hm : m ≤ maxDim) (hm' : m ≤ 4096) (T : Nat → Nat → F64) :
    ∀ b', Grid.inside maxDim ((mem.writeWindow b n m T).bank b') := by
  have key : ∀ (L : List (Nat × Nat)) (mem : Memory), (∀ rc ∈ L, rc.1 < n ∧ rc.2 < m) →
      (∀ b, Grid.inside maxDim (mem.bank b)) →
      ∀ b', Grid.inside maxDim ((L.foldl (fun m rc => m.write b rc.1 rc.2 (T rc.1 rc.2)) mem).bank b') := by
    intro L
    induction L with
    | nil => intro mem _ h b'; exact h b'
    | cons e L ih =>
      intro mem hL h
      have he := hL e List.mem_cons_self
      exact ih _ (fun rc hrc => hL rc (List.mem_cons_of_mem _ hrc))
        (Memory.write_inside h b (lt_of_lt_of_le he.1 hn) (lt_of_lt_of_le he.2 hm) (lt_of_lt_of_le he.2 hm') _)
  exact key _ mem (fun rc hrc => mem_windowCells.1 hrc) h

/-! ### The source window -/

theorem firstUndef_eq_none {m : Memory} {b : Bank} {n k : Nat} :
    firstUndef m b n k = none ↔ ∀ r < n, ∀ c < k, ∃ v, m.read b r c = some v := by
  unfold firstUndef
  rw [List.find?_eq_none]
  constructor
  · intro h r hr c hc
    have := h (r, c) (mem_windowCells.2 ⟨hr, hc⟩)
    simpa [Option.isNone_iff_eq_none, Option.ne_none_iff_exists'] using this
  · rintro h ⟨r, c⟩ hrc
    obtain ⟨v, hv⟩ := h r (mem_windowCells.1 hrc).1 c (mem_windowCells.1 hrc).2
    simp [hv]

theorem firstUndef_eq_some {m : Memory} {b : Bank} {n k : Nat} {rc : Nat × Nat} (h : firstUndef m b n k = some rc) :
    rc.1 < n ∧ rc.2 < k ∧ m.read b rc.1 rc.2 = none := by
  unfold firstUndef at h
  have h1 := List.mem_of_find?_eq_some h
  have h2 := List.find?_some h
  exact ⟨(mem_windowCells.1 h1).1, (mem_windowCells.1 h1).2, by simpa using h2⟩

theorem cellOf_map (n m : Nat) (f : Nat → Nat → F64) {r c : Nat} (hr : r < n) (hc : c < m) :
    cellOf ((List.range n).map fun r => (List.range m).map fun c => f r c) r c = f r c := by
  simp [cellOf, List.getD, hr, hc]

/-- Where the source window holds a value, the grid handed to the operation holds that value. -/
theorem cellOf_sourceWindow {mem : Memory} {b : Bank} {n m r c : Nat} {v : F64} (hr : r < n) (hc : c < m)
    (hv : mem.read b r c = some v) : cellOf (sourceWindow mem b n m) r c = v := by
  unfold sourceWindow
  rw [cellOf_map n m (fun r c => (mem.read b r c).getD 0#64) hr hc, hv]
  rfl

/-- Two memories with the same source window hand the operation the same grid. -/
theorem sourceWindow_congr {mem mem' : Memory} {b b' : Bank} {n m : Nat}
    (h : ∀ r < n, ∀ c < m, mem.read b r c = mem'.read b' r c) :
    sourceWindow mem b n m = sourceWindow mem' b' n m := by
  unfold sourceWindow
  refine List.map_congr_left fun r hr => List.map_congr_left fun c hc => ?_
  rw [h r (List.mem_range.1 hr) c (List.mem_range.1 hc)]

theorem firstUndef_congr {mem mem' : Memory} {b b' : Bank} {n m : Nat}
    (h : ∀ r < n, ∀ c < m, mem.read b r c = mem'.read b' r c) :
    firstUndef mem b n m = firstUndef mem' b' n m := by
  unfold firstUndef
  refine List.find?_congr fun rc hrc => ?_
  rw [h rc.1 (mem_windowCells.1 hrc).1 rc.2 (mem_windowCells.1 hrc).2]

end Sys2Proof.Machine
end

