-- ==== Sys2Proof/Laws/Command.lean ====
section
/-! SUPPORT. Everything a command, a host transaction and a step can do, said once. -/

namespace Sys2Proof.Machine

theorem dimsLegal_eq_true {maxDim n m : Nat} :
    dimsLegal maxDim n m = true ↔ (1 ≤ n ∧ n ≤ maxDim) ∧ 1 ≤ m ∧ m ≤ maxDim := by
  unfold dimsLegal
  rw [← dimBad_eq_false, ← dimBad_eq_false]
  cases dimBad maxDim n <;> cases dimBad maxDim m <;> simp

/-- The check a meaning makes is the well-formedness of its instruction. -/
theorem dimsLegal_iff_wellFormed {c : Config} {i : Instr} :
    dimsLegal c.maxDim i.rows.toNat i.cols.toNat = true ↔ i.WellFormed c := dimsLegal_eq_true

/-- The three meanings are one frame over three results. -/
theorem exec_eq_runCommand (i : Instr) (s : State) :
    exec i s = runCommand i (sourceOf i) i.rows.toNat i.cols.toNat (resultOf s.config i) s := by
  cases i <;> rfl

/-- An accepted command's next state. -/
def commandResult (i : Instr) (s : State) : State :=
  let S := sourceWindow s.mem (sourceOf i) i.rows.toNat i.cols.toNat
  let mem := s.mem.writeWindow (otherBank (sourceOf i)) i.rows.toNat i.cols.toNat (resultOf s.config i S)
  accept (encode i) { s with mem := mem }

/-- Everything a command can do: it is refused for a dimension, or it uses an `UNDEF` cell, or it completes. -/
theorem exec_cases (i : Instr) (s : State) :
    (¬ i.WellFormed s.config ∧ exec i s = .next (refuse [.dim] s)) ∨
    (i.WellFormed s.config ∧ ∃ rc, firstUndef s.mem (sourceOf i) i.rows.toNat i.cols.toNat = some rc ∧
      exec i s = .fault (.undefSource (sourceOf i) rc.1 rc.2)) ∨
    (i.WellFormed s.config ∧ firstUndef s.mem (sourceOf i) i.rows.toNat i.cols.toNat = none ∧
      exec i s = .next (commandResult i s)) := by
  rw [exec_eq_runCommand]
  unfold runCommand
  by_cases hwf : i.WellFormed s.config
  · rw [if_pos (dimsLegal_iff_wellFormed.2 hwf)]
    cases h : firstUndef s.mem (sourceOf i) i.rows.toNat i.cols.toNat with
    | none => exact .inr (.inr ⟨hwf, rfl, rfl⟩)
    | some rc => exact .inr (.inl ⟨hwf, rc, rfl, rfl⟩)
  · rw [if_neg (fun h => hwf (dimsLegal_iff_wellFormed.1 h))]
    exact .inl ⟨hwf, rfl⟩

theorem exec_of_wellFormed {i : Instr} {s : State} (hwf : i.WellFormed s.config)
    (hw : s.WindowWritten (sourceOf i) i.rows.toNat i.cols.toNat) : exec i s = .next (commandResult i s) := by
  have hnone : firstUndef s.mem (sourceOf i) i.rows.toNat i.cols.toNat = none :=
    firstUndef_eq_none.2 fun r hr c hc => Option.isSome_iff_exists.1 (hw r hr c hc)
  rcases exec_cases i s with ⟨h, _⟩ | ⟨_, rc, h, _⟩ | ⟨_, _, h⟩
  · exact absurd hwf h
  · rw [hnone] at h; cases h
  · exact h

/-- A cell after an accepted command: the result inside the destination window, unchanged everywhere else. -/
theorem commandResult_cell (i : Instr) (s : State) (b : Bank) (r c : Nat) (hc : c < 4096) :
    (commandResult i s).cell b r c =
      if b = otherBank (sourceOf i) ∧ r < i.rows.toNat ∧ c < i.cols.toNat
      then some (resultOf s.config i (sourceWindow s.mem (sourceOf i) i.rows.toNat i.cols.toNat) r c)
      else s.cell b r c := by
  unfold commandResult
  rw [accept_cell, cell_with_mem, Memory.read_writeWindow _ _ (le_of_lt i.cols.isLt) _ _ _ _ hc]
  rfl

theorem otherBank_ne (b : Bank) : b ≠ otherBank b := by cases b <;> decide

theorem commandResult_bank_source (i : Instr) (s : State) :
    (commandResult i s).mem.bank (sourceOf i) = s.mem.bank (sourceOf i) :=
  Memory.writeWindow_bank_other _ _ _ (otherBank_ne _) _ _ _

/-- Every place an address can name: a register, a cell below MAXDIM, a table entry, or a hole. -/
theorem place_cell_bounds {maxDim : Nat} {a : Addr} {b : Bank} {r c : Nat} (h : place maxDim a = .cell b r c) :
    r < maxDim ∧ c < maxDim ∧ r < 4096 ∧ c < 4096 := by
  have hr := (rowField a).isLt
  have hc := (colField a).isLt
  unfold place gridPlace at h
  simp only at h
  split at h
  · split at h
    · split at h <;> cases h
    · cases h
  · split at h
    · rename_i hlt; cases h; exact ⟨hlt.1, hlt.2, hr, hc⟩
    · cases h
  · split at h
    · rename_i hlt; cases h; exact ⟨hlt.1, hlt.2, hr, hc⟩
    · cases h
  · split at h <;> cases h

/-- Everything the issue of a command word can do. -/
theorem issue_cases (w : Word32) (s : State) :
    (∃ i, decode w = some i ∧ issue w s = exec i s) ∨
    (decode w = none ∧ issue w s = .next (refuse (causes s.config.maxDim w) s)) := by
  unfold issue
  cases h : decode w with
  | some i => exact .inl ⟨i, rfl, rfl⟩
  | none => exact .inr ⟨rfl, rfl⟩

/-- Everything a host read can do. -/
theorem hostRead_cases (a : Addr) (s : State) :
    (∃ v, (∃ r, place s.config.maxDim a = .reg r ∧ v = (s.reg r).zeroExtend 64) ∧
      hostRead a s = .next (answer v s)) ∨
    (∃ b r c v, place s.config.maxDim a = .cell b r c ∧ s.cell b r c = some v ∧ hostRead a s = .next (answer v s)) ∨
    (∃ b r c, place s.config.maxDim a = .cell b r c ∧ s.cell b r c = none ∧ hostRead a s = .fault (.undefRead b r c)) ∨
    (∃ r c, place s.config.maxDim a = .table r c ∧
      hostRead a s = .next (answer ((s.config.entry r c).zeroExtend 64) s)) ∨
    (place s.config.maxDim a = .hole ∧ hostRead a s = .next (answer 0#64 (flagHole s))) := by
  unfold hostRead
  cases h : place s.config.maxDim a with
  | reg r => exact .inl ⟨_, ⟨r, rfl, rfl⟩, rfl⟩
  | cell b r c =>
    cases hc : s.cell b r c with
    | some v => exact .inr (.inl ⟨b, r, c, v, rfl, hc, by simp [hc]⟩)
    | none => exact .inr (.inr (.inl ⟨b, r, c, rfl, hc, by simp [hc]⟩))
  | table r c => exact .inr (.inr (.inr (.inl ⟨r, c, rfl, rfl⟩)))
  | hole => exact .inr (.inr (.inr (.inr ⟨rfl, rfl⟩)))

/-- Everything a host write can do. -/
theorem hostWrite_cases (a : Addr) (v : Word64) (s : State) :
    (place s.config.maxDim a = .reg .cmd ∧ hostWrite a v s = issue (commandOf v) s) ∨
    (∃ r, place s.config.maxDim a = .reg r ∧ r ≠ .cmd ∧ hostWrite a v s = .next s) ∨
    (∃ b r c, place s.config.maxDim a = .cell b r c ∧ hostWrite a v s = .next (s.setCell b r c v)) ∨
    (∃ r c, place s.config.maxDim a = .table r c ∧ hostWrite a v s = .next s) ∨
    (place s.config.maxDim a = .hole ∧ hostWrite a v s = .next (flagHole s)) := by
  unfold hostWrite
  cases h : place s.config.maxDim a with
  | reg r =>
    cases r with
    | cmd => exact .inl ⟨rfl, rfl⟩
    | status => exact .inr (.inl ⟨_, rfl, by decide, rfl⟩)
    | err => exact .inr (.inl ⟨_, rfl, by decide, rfl⟩)
    | lastCmd => exact .inr (.inl ⟨_, rfl, by decide, rfl⟩)
    | cap => exact .inr (.inl ⟨_, rfl, by decide, rfl⟩)
  | cell b r c => exact .inr (.inr (.inl ⟨b, r, c, rfl, rfl⟩))
  | table r c => exact .inr (.inr (.inr (.inl ⟨r, c, rfl, rfl⟩)))
  | hole => exact .inr (.inr (.inr (.inr ⟨rfl, rfl⟩)))

/-! ### The step and runs of steps -/

/-- The step on a state whose host has a next move. -/
theorem step_cons {s : State} {t : Transaction} {rest : List Transaction} (h : s.pending = t :: rest) :
    step s = transact t { s with pending := rest } := by
  unfold step
  rw [h]

@[simp] theorem runFor_zero (s : State) : runFor 0 s = .next s := rfl

/-- A run whose first step goes on. -/
theorem runFor_succ_of_next {s t : State} (h : step s = .next t) (k : Nat) : runFor (k + 1) s = runFor k t := by
  have key : ∀ (M : Host.Core) (k : Nat) (s t : M.State), M.step s = .next t → M.run (k + 1) s = M.run k t := by
    intro M k s t h
    simp [Host.Core.run, h]
  exact key core k s t h

/-- Everything a step can do. -/
theorem step_cases (s : State) :
    (s.pending = [] ∧ step s = .next s) ∨
    (∃ t rest, s.pending = t :: rest ∧ step s = transact t { s with pending := rest }) := by
  unfold step
  cases h : s.pending with
  | nil => exact .inl ⟨rfl, rfl⟩
  | cons t rest => exact .inr ⟨t, rest, rfl, rfl⟩

end Sys2Proof.Machine
end

