-- ==== Sys2Proof/Laws/PerInstr.lean ====
section
/-! SUPPORT. The family `EncodedFields`: what 30_encoding R70 and R72 fix of every instruction's word, one lemma per
constructor. -/

namespace Sys2Proof.Laws.EncodedFields

/-- The operation number of R72. -/
def opNumber : Instr → Nat
  | .fdct _ _ _ => 1
  | .quant _ _ _ => 2
  | .idct _ _ _ => 3

/-- The word of an instruction has its operation number in OP, 0 in ZERO, and its dimensions in N and M. -/
def Statement (i : Instr) : Prop :=
  (opField (encode i)).toNat = opNumber i ∧ zeroField (encode i) = 0#3 ∧
    nField (encode i) = i.rows ∧ mField (encode i) = i.cols

theorem fdct (src : Bank) (n m : BitVec 12) : Statement (.fdct src n m) :=
  ⟨congrArg BitVec.toNat (opField_commandWord _ src n m), zeroField_commandWord _ src n m,
    nField_commandWord _ src n m, mField_commandWord _ src n m⟩

theorem quant (src : Bank) (n m : BitVec 12) : Statement (.quant src n m) :=
  ⟨congrArg BitVec.toNat (opField_commandWord _ src n m), zeroField_commandWord _ src n m,
    nField_commandWord _ src n m, mField_commandWord _ src n m⟩

theorem idct (src : Bank) (n m : BitVec 12) : Statement (.idct src n m) :=
  ⟨congrArg BitVec.toNat (opField_commandWord _ src n m), zeroField_commandWord _ src n m,
    nField_commandWord _ src n m, mField_commandWord _ src n m⟩

end Sys2Proof.Laws.EncodedFields
end

