-- ==== Sys2Proof/Tests/Slice0.lean ====
section
/-! SUPPORT. Small tests, each of one step or one operation, whose expected values are the spec's printed vectors
(95_test_vectors, named V-… and P1 to P6), then for every statement with hypotheses a concrete instance that meets them
together. -/

namespace Sys2Proof.Tests

open Sys2Proof.Machine

/-! ### States the tests start from -/

/-- The state after reset, with cells written and a host that has moves to make. -/
def start (ga gb : Grid) (moves : List Transaction) : State :=
  { State.reset with mem := { ga := ga, gb := gb }, pending := moves }

/-- The same on an instance with another MAXDIM. -/
def startWith (maxDim : Nat) (moves : List Transaction) : State :=
  { State.resetOf { Config.initial with maxDim := maxDim } with pending := moves }

/-- A write of CMD. -/
def cmd (w : Word64) : Transaction := .hwr cmdAddr w

/-- What one step leaves in STATUS, ERR and LASTCMD. -/
def regsAfter (s : State) : Option (Word32 × Word32 × Word32) :=
  (nextOf (step s)).map fun t => (t.status, t.err, t.lastCmd)

/-- What one step makes `HRD` return, with ERR. -/
def answerAfter (s : State) : Option (List Word64 × Word32) :=
  (nextOf (step s)).map fun t => (t.answers, t.err)

/-- The correctly rounded cosine on the three arguments of a dimension of 2 (V-N6, V-N7, V-N8). -/
def cosOfTwo (a : F64) : F64 :=
  if a = 0x3FE921FB54442D18#64 then 0x3FE6A09E667F3BCD#64
  else if a = 0x4002D97C7F3321D2#64 then 0xBFE6A09E667F3BCC#64
  else fone

/-! ### Ill-formed commands, one for each check of 30_encoding R73 -/

theorem test_wf_refuses_zero_rows : ¬ (Instr.fdct .ga 0#12 1#12).WellFormed Config.initial := by decide
theorem test_wf_refuses_zero_cols : ¬ (Instr.quant .ga 1#12 0#12).WellFormed Config.initial := by decide
theorem test_wf_refuses_rows_above_maxDim : ¬ (Instr.idct .gb 17#12 16#12).WellFormed Config.initial := by decide
theorem test_wf_refuses_cols_above_maxDim : ¬ (Instr.fdct .gb 16#12 17#12).WellFormed Config.initial := by decide
theorem test_wf_accepts_maxDim : (Instr.fdct .ga 16#12 16#12).WellFormed Config.initial := by decide

/-! ### Command words, written out field by field from 30_encoding R70 -/

/-- OP = 1, SRC = 0, ZERO = 0, N = 10, M = 16 (V-D5). -/
theorem test_decode_fdct :
    decode 0b0001_0_000_000000001010_000000010000#32 = some (.fdct .ga 10#12 16#12) := by decide
/-- OP = 1, SRC = 1 (V-D2). -/
theorem test_decode_fdct_gb :
    decode 0b0001_1_000_000000001000_000000001000#32 = some (.fdct .gb 8#12 8#12) := by decide
/-- OP = 2, SRC = 1 (V-D3). -/
theorem test_decode_quant :
    decode 0b0010_1_000_000000001000_000000001000#32 = some (.quant .gb 8#12 8#12) := by decide
/-- OP = 3, SRC = 0, both fields all ones (V-D16). -/
theorem test_decode_idct :
    decode 0b0011_0_000_111111111111_111111111111#32 = some (.idct .ga 4095#12 4095#12) := by decide
/-- OP = 4 (V-D12). -/
theorem test_decode_rejects_op : decode 0x40001001#32 = none := by decide
/-- OP = 0 (V-D11). -/
theorem test_decode_rejects_zero_word : decode 0x00000000#32 = none := by decide
/-- OP = 15 (V-D13). -/
theorem test_decode_rejects_op15 : decode 0xF0001001#32 = none := by decide
/-- ZERO = 1 (V-D14). -/
theorem test_decode_rejects_reserved : decode 0x11001001#32 = none := by decide
/-- 30_encoding R76. -/
theorem test_encode : encode (.idct .gb 2#12 2#12) = 0x38002002#32 := by decide
theorem test_table_word : decodeTableWord 32 0x20001001 = some (.quant .ga 1#12 1#12) := by decide

theorem test_causes_all : causes 16 0x07000000#32 = [.op, .rsv, .dim] := by decide -- V-D15
theorem test_causes_dim_large : causes 16 0x10011010#32 = [.dim] := by decide -- V-D8
theorem test_causes_dim_edge : causes 16 0x10010010#32 = [] := by decide -- V-D7
theorem test_causes_rows_zero : causes 16 0x10000001#32 = [.dim] := by decide -- V-D9
theorem test_causes_cols_zero : causes 16 0x10001000#32 = [.dim] := by decide -- V-D10
theorem test_causes_rsv_alone : causes 4095 0x3FFFFFFF#32 = [.rsv] := by decide -- V-D17
theorem test_causes_op_dim : causes 16 0x00000000#32 = [.op, .dim] := by decide -- V-D11

/-! ### Refused command writes (P3) -/

theorem test_refuse_zero_word : regsAfter (start [] [] [cmd 0]) = some (2, 0x5, 0) := by decide
theorem test_refuse_reserved :
    regsAfter { start [] [] [cmd 0x11001001#64] with err := 0x5 } = some (2, 0x7, 0) := by decide
theorem test_refuse_dim : regsAfter (start [] [] [cmd 0x10011001#64]) = some (2, 0x4, 0) := by decide

/-! ### The three commands -/

/-- P6: FDCT GA, 1, 1 of 5.0. -/
theorem test_fdct_step :
    ((nextOf (step (start [(0, 0x4014000000000000#64)] [] [cmd 0x10001001#64]))).map fun t =>
      (t.cell .gb 0 0, t.cell .ga 0 0, t.status, t.err, t.lastCmd)) =
    some (some 0x4014000000000000#64, some 0x4014000000000000#64, 1, 0, 0x10001001#32) := by decide +kernel

/-- V-F2: the forward transform of (1.0, 2.0). -/
theorem test_fdct_cells :
    let S : Window := [[0x3FF0000000000000#64, 0x4000000000000000#64]]
    fdctCell cosOfTwo 1 2 S 0 0 = 0x4000F876CCDF6CDA#64 ∧
    fdctCell cosOfTwo 1 2 S 0 1 = 0xBFE6A09E667F3BCB#64 := by decide +kernel

/-- P3: QUANT GB, 1, 3 of (8.0, 5.5, -25.0). -/
theorem test_quant_step :
    ((nextOf (step (start []
      [(0, 0x4020000000000000#64), (1, 0x4016000000000000#64), (2, 0xC039000000000000#64)]
      [cmd 0xAAAAAAAA28001003#64]))).map fun t =>
      (t.cell .ga 0 0, t.cell .ga 0 1, t.cell .ga 0 2, t.cell .ga 0 3, t.lastCmd)) =
    some (some 0x3FF0000000000000#64, some 0x3FF0000000000000#64, some 0xC008000000000000#64, none, 0x28001003#32) := by
  decide +kernel

/-- V-Q3, V-Q4 in both modes, V-Q9 and V-Q22. -/
theorem test_quant_cells :
    quantCell .halfAway 10 0x4039000000000000#64 = 0x4008000000000000#64 ∧
    quantCell .halfEven 10 0x4039000000000000#64 = 0x4000000000000000#64 ∧
    quantCell .halfAway 10 0xC014000000000000#64 = 0xBFF0000000000000#64 ∧
    quantCell .halfEven 10 0xC014000000000000#64 = 0x8000000000000000#64 ∧
    quantCell .halfAway 16 0x401FFFFFFFFFFFFF#64 = fzero ∧
    quantCell .halfAway 10 0x7FEFFFFFFFFFFFFF#64 = 0x7FB9999999999999#64 ∧
    quantCell .halfAway 10 0x0000000000000001#64 = fzero := by decide +kernel

/-- V-Q13, V-Q14, V-Q15: the table is tiled. -/
theorem test_table_is_tiled :
    Config.initial.entry 8 10 = 10 ∧ Config.initial.entry 15 15 = 99 ∧ Config.initial.entry 9 1 = 12 := by decide

/-- V-I1: IDCT GB, 1, 1 of 8.0. -/
theorem test_idct_step :
    ((nextOf (step (start [] [(0, 0x4020000000000000#64)] [cmd 0x38001001#64]))).map fun t =>
      (t.cell .ga 0 0, t.lastCmd)) = some (some 0x4020000000000000#64, 0x38001001#32) := by decide +kernel

/-- V-I5: the inverse transform of (31.0, -9.0; -17.0, -0.0). -/
theorem test_idct_cells :
    let C : Window := [[0x403F000000000000#64, 0xC022000000000000#64], [0xC031000000000000#64, 0x8000000000000000#64]]
    idctCell cosOfTwo 2 2 C 0 0 = 0x4004000000000004#64 ∧ idctCell cosOfTwo 2 2 C 0 1 = 0x4027000000000001#64 ∧
    idctCell cosOfTwo 2 2 C 1 0 = 0x4033800000000001#64 ∧ idctCell cosOfTwo 2 2 C 1 1 = 0x403C800000000001#64 := by
  decide +kernel

/-- P6: IDCT of a bank that reset has forgotten. -/
theorem test_undef_source : exec (.idct .gb 1#12 1#12) State.reset = .fault (.undefSource .gb 0 0) := by rfl

/-! ### Host access (V-M1 to V-M12) -/

theorem test_write_cell :
    ((nextOf (step (start [] [] [.hwr 0x1002003#26 0x406FE00000000000#64]))).map fun t => t.cell .ga 2 3) =
    some (some 0x406FE00000000000#64) := by decide
theorem test_read_nan_payload :
    answerAfter (start [] [(0, 0x7FF8000000000123#64)] [.hrd 0x2000000#26]) = some ([0x7FF8000000000123#64], 0) := by
  decide
theorem test_read_table : answerAfter (start [] [] [.hrd 0x3004005#26]) = some ([0x6D#64], 0) := by decide
theorem test_read_table_row : answerAfter (start [] [] [.hrd 0x3000002#26]) = some ([0x0A#64], 0) := by decide
theorem test_write_table_ignored :
    nextOf (step (start [] [] [.hwr 0x3000000#26 5#64])) = some (start [] [] []) := by decide
theorem test_read_cap : answerAfter (start [] [] [.hrd 0x0000004#26]) = some ([0x10#64], 0) := by decide
theorem test_cap_half_even : capWord { Config.initial with roundMode := .halfEven } = 0x00010010#32 := by decide
theorem test_read_cmd : answerAfter (start [] [] [.hrd 0x0000000#26]) = some ([0#64], 0) := by decide
theorem test_read_register_hole : answerAfter (start [] [] [.hrd 0x0000005#26]) = some ([0#64], 0x8) := by decide
theorem test_write_grid_hole :
    nextOf (step (start [] [] [.hwr 0x1010000#26 1#64])) = some { start [] [] [] with err := 0x8 } := by decide
theorem test_read_undef : step (start [] [] [.hrd 0x100000F#26]) = .fault (.undefRead .ga 0 15) := by rfl
theorem test_read_table_hole : answerAfter (start [] [] [.hrd 0x3008000#26]) = some ([0#64], 0x8) := by decide
theorem test_write_status_ignored :
    nextOf (step (start [] [] [.hwr 0x0000001#26 0xFFFFFFFF#64])) = some (start [] [] []) := by decide
/-- P6: reset. -/
theorem test_reset :
    nextOf (step { start [(0, 1#64)] [] [.reset] with status := 1, err := 0xF, lastCmd := 0x10001001#32 }) =
    some State.reset := by decide

/-! ### Numbers (V-N1 to V-N14; 43_numerics R126, R134, R136) -/

theorem test_alpha :
    alpha 0 2 = 0x3FE6A09E667F3BCD#64 ∧ alpha 1 2 = 0x3FF0000000000000#64 ∧ alpha 0 10 = 0x3FD43D136248490F#64 ∧
    alpha 1 10 = 0x3FDC9F25C5BFEDD9#64 := by decide +kernel
theorem test_arg :
    arg 0 3 8 = fzero ∧ arg 1 1 2 = 0x4002D97C7F3321D2#64 ∧ arg 7 7 8 = 0x40349DE02B1FECFE#64 ∧
    arg 1 0 3 = 0x3FE0C152382D7365#64 ∧ arg 2 2 3 = 0x4014F1A6C638D03F#64 := by decide +kernel
/-- V-F9, V-F10, V-F12. -/
theorem test_infinities :
    fadd 0x7FF0000000000000#64 fone = 0x7FF0000000000000#64 ∧
    isNaN (fadd 0x7FF0000000000000#64 0xFFF0000000000000#64) = true ∧
    fadd 0x7FE1CCF385EBC8A0#64 0x7FE1CCF385EBC8A0#64 = 0x7FF0000000000000#64 := by decide +kernel
/-- V-F13: a sum that starts at +0.0 stays +0.0. -/
theorem test_signed_zero : fdctCell cosOfTwo 1 2 [[0x8000000000000000#64, 0x8000000000000000#64]] 0 1 = fzero := by
  decide +kernel
/-- 30_encoding R76: literals of the notation (the words P3 and P4 print). -/
theorem test_literals :
    literalWord (.decimal true 25 0) = 0xC039000000000000#64 ∧ literalWord (.decimal false 255 0) = 0x406FE00000000000#64 ∧
    literalWord (.decimal false 55 (-1)) = 0x4016000000000000#64 ∧
    literalWord (.decimal false 1 308) = 0x7FE1CCF385EBC8A0#64 := by decide +kernel
/-- 30_encoding R77: PIPE GA, 2, 2 (P2). -/
theorem test_pipe_words :
    (pipeCommands .ga 2#12 2#12).map encode = [0x10002002#32, 0x28002002#32, 0x30002002#32] := by decide

/-! ### Witnesses: for each statement with hypotheses, an instance that meets all of them together

A hypothesis of the form `exec i s = .next t` or `step s = .next t` is met by the state it computes. -/

/-- One written cell in GA, and a command on it. -/
def oneCell (moves : List Transaction) : State := start [(0, 0x4014000000000000#64)] [] moves

theorem witness_EncodeOfDecode : decode 0x10008008#32 = some (.fdct .ga 8#12 8#12) := by decide

theorem witness_DecodeFollowsOpcodeMap :
    0x1FFFFFFF#32 &&& 0xF7000000#32 ≠ 0x10000000#32 ∧ 0x18FFFFFF#32 &&& 0xF7000000#32 = 0x10000000#32 ∧
    0x28FFF001#32 &&& 0xF7000000#32 = 0x20000000#32 ∧ 0x30000000#32 &&& 0xF7000000#32 = 0x30000000#32 ∧
    0x40001001#32 &&& 0xF7000000#32 ≠ 0x30000000#32 := by decide

theorem witness_StepRunsDecodedInstruction :
    (oneCell [cmd 0xAAAAAAAA10001001#64, .reset]).pending = .hwr cmdAddr 0xAAAAAAAA10001001#64 :: [.reset] ∧
    decode ((0xAAAAAAAA10001001#64 : Word64).extractLsb' 0 32) = some (.fdct .ga 1#12 1#12) := by decide

/-- All three causes, and each alone. -/
theorem witness_RefusedWriteChangesOnlyErrAndStatus :
    (oneCell [cmd 0x07000000#64]).pending = [.hwr cmdAddr 0x07000000#64] ∧
    causes (oneCell []).config.maxDim ((0x07000000#64 : Word64).extractLsb' 0 32) = [.op, .rsv, .dim] ∧
    causes (oneCell []).config.maxDim ((0x40001001#64 : Word64).extractLsb' 0 32) = [.op] ∧
    causes (oneCell []).config.maxDim ((0x11001001#64 : Word64).extractLsb' 0 32) = [.rsv] ∧
    causes (oneCell []).config.maxDim ((0x10011010#64 : Word64).extractLsb' 0 32) = [.dim] := by decide

theorem witness_AcceptedWriteRecordsTheCommand :
    (oneCell [cmd 0x10001001#64]).pending = [.hwr cmdAddr 0x10001001#64] ∧
    causes (oneCell []).config.maxDim ((0x10001001#64 : Word64).extractLsb' 0 32) = [] ∧
    decode ((0x10001001#64 : Word64).extractLsb' 0 32) = some (.fdct .ga 1#12 1#12) ∧
    (oneCell [cmd 0x10001001#64]).WindowWritten .ga 1 1 := by
  refine ⟨by decide, by decide, by decide, ?_⟩
  intro r hr c hc
  interval_cases r
  interval_cases c
  decide

theorem witness_IdleEngineHoldsItsState : (oneCell []).pending = [] := by decide

/-- The window of the three commands: 1×1 at the smallest size. -/
theorem witness_window_holds : (oneCell []).WindowHolds .ga 1 1 [[0x4014000000000000#64]] := by
  intro r hr c hc
  interval_cases r
  interval_cases c
  decide

theorem witness_FdctWritesForwardTransform : (Instr.fdct .ga 1#12 1#12).WellFormed (oneCell []).config ∧
    (oneCell []).WindowHolds .ga 1 1 [[0x4014000000000000#64]] := ⟨by decide, witness_window_holds⟩

theorem witness_QuantWritesRoundedQuotients : (Instr.quant .ga 1#12 1#12).WellFormed (oneCell []).config ∧
    (oneCell []).WindowHolds .ga 1 1 [[0x4014000000000000#64]] := ⟨by decide, witness_window_holds⟩

theorem witness_IdctWritesInverseTransform : (Instr.idct .ga 1#12 1#12).WellFormed (oneCell []).config ∧
    (oneCell []).WindowHolds .ga 1 1 [[0x4014000000000000#64]] := ⟨by decide, witness_window_holds⟩

/-- The largest size: a 16×16 window at MAXDIM = 16, every cell 5.0. -/
theorem witness_largest_window : ∃ s : State, (Instr.fdct .ga 16#12 16#12).WellFormed s.config ∧
    s.WindowHolds .ga 16 16 (gridOf 16 16 fun _ _ => 0x4014000000000000#64) := by
  obtain ⟨m, hm⟩ : ∃ m : Memory, ∀ r, r < 16 → ∀ c, c < 16 → m.read .ga r c = some 0x4014000000000000#64 :=
    ⟨State.reset.mem.writeWindow .ga 16 16 fun _ _ => 0x4014000000000000#64, fun r hr c hc =>
      (Memory.read_writeWindow _ .ga (n := 16) (m := 16) (by decide) _ .ga r c (by omega)).trans
        (if_pos ⟨rfl, hr, hc⟩)⟩
  refine ⟨{ State.reset with mem := m }, (by decide : (Instr.fdct .ga 16#12 16#12).WellFormed Config.initial), fun r hr c hc => ?_⟩
  unfold gridOf
  rw [cellOf_map 16 16 _ hr hc]
  exact hm r hr c hc

/-- Each way a dimension can be out of range, at its boundary. -/
theorem witness_IllegalDimensionIsRefused :
    (Instr.fdct .ga 0#12 1#12).rows.toNat = 0 ∧ (Instr.quant .ga 1#12 0#12).cols.toNat = 0 ∧
    (oneCell []).config.maxDim < (Instr.idct .ga 17#12 1#12).rows.toNat ∧
    (oneCell []).config.maxDim < (Instr.fdct .ga 1#12 17#12).cols.toNat := by decide

/-- Both sides of the statement: a window with a hole in its last cell, and one without. -/
theorem witness_UndefSourceCellIsAFault :
    (Instr.fdct .ga 1#12 2#12).WellFormed (oneCell []).config ∧
    exec (.fdct .ga 1#12 2#12) (oneCell []) = .fault (.undefSource .ga 0 1) ∧
    (oneCell []).cell .ga 0 1 = none ∧ ∃ t, exec (.fdct .ga 1#12 1#12) (oneCell []) = .next t :=
  ⟨by decide, rfl, by decide, _, rfl⟩

/-- An accepted command and a refused one. -/
theorem witness_CommandWritesOnlyItsWindow : (∃ t, exec (.quant .ga 1#12 1#12) (oneCell []) = .next t) ∧
    ∃ t, exec (.quant .ga 0#12 1#12) (oneCell []) = .next t := ⟨⟨_, rfl⟩, _, rfl⟩

/-- Two states that differ outside the window. -/
theorem witness_ResultDependsOnWindowOnly :
    let s := oneCell []
    let s' := { start [(0, 0x4014000000000000#64), (1, 7#64)] [(3, 9#64)] [] with err := 0xF }
    s.config = s'.config ∧ s.cell .ga 0 0 = s'.cell .ga 0 0 ∧ s ≠ s' ∧
    (Instr.fdct .ga 1#12 1#12).WellFormed s.config ∧ ∃ t, exec (.fdct .ga 1#12 1#12) s = .next t :=
  ⟨by decide, by decide, by decide, by decide, _, rfl⟩

/-- Two states that agree on cell (0, 0) and its entry only. -/
theorem witness_QuantCellDependsOnItsOwnCell :
    let s := start [(0, 0x4014000000000000#64), (1, 7#64)] [] []
    let s' := start [(0, 0x4014000000000000#64), (1, 8#64)] [] []
    (Instr.quant .ga 1#12 2#12).WellFormed s.config ∧ s.config.roundMode = s'.config.roundMode ∧
    s.config.entry 0 0 = s'.config.entry 0 0 ∧ s.cell .ga 0 0 = s'.cell .ga 0 0 ∧ s.cell .ga 0 1 ≠ s'.cell .ga 0 1 ∧
    (∃ t, exec (.quant .ga 1#12 2#12) s = .next t) ∧ ∃ t, exec (.quant .ga 1#12 2#12) s' = .next t :=
  ⟨by decide, by decide, by decide, by decide, by decide, ⟨_, rfl⟩, _, rfl⟩

theorem witness_SecondRunChangesNothing :
    Memory.wf (oneCell []).mem ∧ ∃ t, exec (.idct .ga 1#12 1#12) (oneCell []) = .next t := ⟨by decide, _, rfl⟩

theorem witness_PipeComposesTheThreeStages :
    let s := oneCell (lineTransactions (.pipe .ga 1#12 1#12) ++ [.reset])
    (Instr.fdct .ga 1#12 1#12).WellFormed s.config ∧ s.WindowWritten .ga 1 1 ∧
    s.pending = lineTransactions (.pipe .ga 1#12 1#12) ++ [.reset] := by
  refine ⟨by decide, ?_, by decide⟩
  intro r hr c hc
  interval_cases r
  interval_cases c
  decide

/-- The first cell and the last cell of a bank. -/
theorem witness_CellReadReturnsWrittenBits :
    let a := wordAddr (bankSpace .ga) 0#12 0#12
    let b := wordAddr (bankSpace .gb) 15#12 15#12
    (start [] [] [.hwr a 1#64, .hrd a]).pending = .hwr a 1#64 :: .hrd a :: [] ∧
    (start [] [] [.hwr b 1#64, .hrd b]).pending = .hwr b 1#64 :: .hrd b :: [] ∧
    (15#12).toNat < (start [] [] []).config.maxDim := by decide

/-- A written cell and one that is UNDEF. -/
theorem witness_CellReadReturnsContentOrFaults :
    (oneCell [.hrd (wordAddr (bankSpace .ga) 0#12 0#12)]).pending = [.hrd (wordAddr (bankSpace .ga) 0#12 0#12)] ∧
    (oneCell []).cell .ga 0 0 = some 0x4014000000000000#64 ∧
    (oneCell [.hrd (wordAddr (bankSpace .ga) 0#12 15#12)]).pending = [.hrd (wordAddr (bankSpace .ga) 0#12 15#12)] ∧
    (oneCell []).cell .ga 0 15 = none ∧ (15#12).toNat < (oneCell []).config.maxDim := by decide

/-- A read of each end of the register file, a write of a read-only register, and a write of CMD. -/
theorem witness_RegisterSpaceAccess :
    (oneCell [.hrd (wordAddr 0#2 0#12 (indexOfReg .cmd))]).pending = [.hrd 0x0000000#26] ∧
    (oneCell [.hrd (wordAddr 0#2 0#12 (indexOfReg .cap))]).pending = [.hrd 0x0000004#26] ∧
    RegName.status ≠ .cmd ∧
    (oneCell [.hwr (wordAddr 0#2 0#12 (indexOfReg .status)) 1#64]).pending = [.hwr 0x0000001#26 1#64] ∧
    (oneCell [.hwr (wordAddr 0#2 0#12 (indexOfReg .cmd)) 1#64]).pending = [.hwr 0x0000000#26 1#64] := by decide

/-- The last entry of the table, read and written. -/
theorem witness_TableSpaceAccess :
    (oneCell [.hrd (wordAddr 3#2 (BitVec.ofNat 12 7) (BitVec.ofNat 12 7))]).pending = [.hrd 0x3007007#26] ∧
    (oneCell [.hwr (wordAddr 3#2 (BitVec.ofNat 12 7) (BitVec.ofNat 12 7)) 1#64]).pending = [.hwr 0x3007007#26 1#64] := by
  decide

/-- The smallest and the largest instance. -/
theorem witness_CapHoldsMaxDimAndMode : Config.initial.Valid ∧ { Config.initial with maxDim := 4095 }.Valid := by decide

/-- Each kind of hole at its first address, and the address before it, which is none. -/
theorem witness_HoleAccessIsFlagged :
    place 16 0x0001000#26 = .hole ∧ place 16 0x0000005#26 = .hole ∧ place 16 0x0000004#26 = .reg .cap ∧
    place 16 0x1010000#26 = .hole ∧ place 16 0x100F00F#26 = .cell .ga 15 15 ∧
    place 16 0x2000010#26 = .hole ∧ place 16 0x3008000#26 = .hole ∧ place 16 0x3000008#26 = .hole ∧
    place 16 0x3007007#26 = .table 7 7 := by decide

theorem witness_hole_conditions :
    (0x0001000#26).toNat / 2 ^ 24 = 0 ∧ (0x0001000#26).toNat / 2 ^ 12 % 4096 ≠ 0 ∧
    (0x0000005#26).toNat / 2 ^ 24 = 0 ∧ 4 < (0x0000005#26).toNat % 4096 ∧
    (0x1010000#26).toNat / 2 ^ 24 = 1 ∧ 16 ≤ (0x1010000#26).toNat / 2 ^ 12 % 4096 ∧
    (0x2000010#26).toNat / 2 ^ 24 = 2 ∧ 16 ≤ (0x2000010#26).toNat % 4096 ∧
    (0x3008000#26).toNat / 2 ^ 24 = 3 ∧ 8 ≤ (0x3008000#26).toNat / 2 ^ 12 % 4096 ∧
    8 ≤ (0x3000008#26).toNat % 4096 ∧
    (oneCell [.hrd 0x3000008#26]).pending = [.hrd 0x3000008#26] ∧
    (oneCell [.hwr 0x0000005#26 1#64]).pending = [.hwr 0x0000005#26 1#64] := by decide

/-- A byte address that is no multiple of 8 from the base, and one beyond the map. -/
theorem witness_PlatformBytesAreLittleEndian :
    (∀ a : Addr, 1 ≠ 0 + 8 * a.toNat) ∧ ∀ a : Addr, 2 ^ 29 ≠ 0 + 8 * a.toNat := by
  constructor
  · intro a; omega
  · intro a; have := a.isLt; omega

theorem witness_ResetEventRestoresResetState : (oneCell [.reset]).pending = [.reset] := by decide

theorem witness_ResetStateMeetsInvariant : Config.initial.Valid ∧ Config.initial.Shipped := by decide

/-- A state that meets the invariant and steps: the state after reset with moves to make. -/
theorem witness_StepKeepsInvariant :
    (start [] [] [cmd 0]).Inv ∧ (∃ t, step (start [] [] [cmd 0]) = .next t) ∧
    (oneCell [cmd 0x10001001#64]).Inv ∧ ∃ t, step (oneCell [cmd 0x10001001#64]) = .next t :=
  ⟨{ config_valid := by decide, memory_wf := by decide, ga_inside := by decide, gb_inside := by decide,
     status_legal := by decide, err_legal := by decide, lastCmd_legal := by decide, done_has_command := by decide,
     refused_has_cause := by decide, fresh_has_none := by decide }, ⟨_, rfl⟩,
   { config_valid := by decide, memory_wf := by decide, ga_inside := by decide, gb_inside := by decide,
     status_legal := by decide, err_legal := by decide, lastCmd_legal := by decide, done_has_command := by decide,
     refused_has_cause := by decide, fresh_has_none := by decide }, _, rfl⟩

theorem witness_ConfigurationNeverChanges : ∃ t, step (oneCell [.reset]) = .next t := ⟨_, rfl⟩

/-- The last bit of ERR, before a step that is no reset. -/
theorem witness_ErrBitsAreSticky :
    let s := { oneCell [cmd 0x10001001#64] with err := 0x8 }
    (∃ t, step s = .next t) ∧ s.pending.head? ≠ some .reset ∧ s.err.getLsbD 3 = true := ⟨⟨_, rfl⟩, by decide, by decide⟩

/-- An accepted and a refused CMD write. -/
theorem witness_StatusReportsLastCommandWrite :
    (∃ t, step (oneCell [cmd 0x10001001#64]) = .next t) ∧ (∃ t, step (oneCell [cmd 0]) = .next t) ∧
    (oneCell [cmd 0]).pending = [.hwr cmdAddr 0#64] := ⟨⟨_, rfl⟩, ⟨_, rfl⟩, by decide⟩

/-- A move that is no CMD write, and a CMD write that changes LASTCMD. -/
theorem witness_OnlyCommandWritesTouchStatus :
    (∃ t, step (oneCell [.hrd 0x0000005#26]) = .next t) ∧
    (∀ v, (oneCell [.hrd 0x0000005#26]).pending.head? ≠ some (.hwr cmdAddr v)) ∧
    (∃ t, step (oneCell [cmd 0x10001001#64]) = .next t ∧ t.lastCmd ≠ (oneCell [cmd 0x10001001#64]).lastCmd) ∧
    (oneCell [cmd 0x10001001#64]).pending.head? = some (.hwr cmdAddr 0x10001001#64) :=
  ⟨⟨_, rfl⟩, (fun v h => by cases h), ⟨_, rfl, by decide⟩, by decide⟩

theorem witness_WrittenCellsStayWritten :
    (∃ t, step (oneCell [.hwr 0x1000000#26 1#64]) = .next t) ∧
    (oneCell [.hwr 0x1000000#26 1#64]).pending.head? ≠ some .reset ∧ ((oneCell []).cell .ga 0 0).isSome = true :=
  ⟨⟨_, rfl⟩, by decide, by decide⟩

/-- Each of the two faults occurs. -/
theorem witness_OnlyUndefCellsStopARun :
    step (oneCell [.hrd 0x100000F#26]) = .fault (.undefRead .ga 0 15) ∧
    step (oneCell [cmd 0x18001001#64]) = .fault (.undefSource .gb 0 0) := ⟨rfl, rfl⟩

/-- The ends of each range of the exponent field: 1, 2046, 0 and 2047. -/
theorem witness_WordValueFollowsLayout :
    (0x0010000000000000#64).toNat / 2 ^ 52 % 2048 = 1 ∧ (0xFFEFFFFFFFFFFFFF#64).toNat / 2 ^ 52 % 2048 = 2046 ∧
    (0x800FFFFFFFFFFFFF#64).toNat / 2 ^ 52 % 2048 = 0 ∧ (0xFFF0000000000000#64).toNat / 2 ^ 52 % 2048 = 2047 := by decide

/-- Finite operands whose exact sum is in range, at the overflow bound exactly, and at its negative. -/
theorem witness_BasicOperationsRoundOnce :
    isFinite fone = true ∧ isZero fone = false ∧ |toRat fone + toRat fone| < overflowBound ∧
    isFinite 0x7FEFFFFFFFFFFFFF#64 = true ∧ isFinite 0x7C90000000000000#64 = true ∧
    overflowBound ≤ toRat 0x7FEFFFFFFFFFFFFF#64 + toRat 0x7C90000000000000#64 ∧
    toRat 0xFFEFFFFFFFFFFFFF#64 + toRat 0xFC90000000000000#64 ≤ -overflowBound := by decide +kernel

theorem witness_IntegersConvertExactly : (65535 : Nat) < 2 ^ 53 ∧ 2 ^ 53 - 1 < 2 ^ 53 ∧ 4095 ≤ 4095 ∧ 4094 < 4095 := by decide

/-- The smallest and the largest positive value. -/
theorem witness_SquareRootIsNearest :
    (isFinite 0x0000000000000001#64 = true ∧ isZero 0x0000000000000001#64 = false ∧ fsign 0x0000000000000001#64 = false) ∧
    isFinite 0x7FEFFFFFFFFFFFFF#64 = true ∧ isZero 0x7FEFFFFFFFFFFFFF#64 = false ∧ fsign 0x7FEFFFFFFFFFFFFF#64 = false := by
  decide

theorem witness_CosineHasItsStatedProperties :
    isFinite fone = true ∧ (1 < 2 ∧ 1 < 2 ∧ 2 ≤ 4095) ∧ 4094 < 4095 ∧ 4095 ≤ 4095 := by decide

theorem witness_ZeroFrequencyFactorIsOne : (0 < 1 ∧ 1 ≤ 4095) ∧ 4094 < 4095 ∧ 4095 ≤ 4095 := by decide

/-- One operand pair for each clause. -/
theorem witness_NaNRules :
    isNaN 0x7FF0000000000001#64 = true ∧ isNaN 0xFFFFFFFFFFFFFFFF#64 = true ∧
    isInf 0x7FF0000000000000#64 = true ∧ isInf 0xFFF0000000000000#64 = true ∧
    fsign 0x7FF0000000000000#64 ≠ fsign 0xFFF0000000000000#64 ∧ isZero 0x8000000000000000#64 = true := by decide

theorem witness_InfinityRules :
    isInf 0xFFF0000000000000#64 = true ∧ isFinite 0x8000000000000000#64 = true ∧
    isFinite 0x0000000000000001#64 = true ∧ isZero 0x0000000000000001#64 = false := by decide

theorem witness_SignRules :
    isNaN (fmul 0x8000000000000000#64 fone) = false ∧ isNaN (fdiv 0x8000000000000000#64 fone) = false ∧
    isFinite 0xFFEFFFFFFFFFFFFF#64 = true := by decide +kernel

theorem witness_ZeroGridTransformsToPlusZero :
    (∀ x, x < 1 → ∀ y, y < 2 → isZero (cellOf [[0x8000000000000000#64, fzero]] x y) = true) ∧
    1 ≤ 4095 ∧ 2 ≤ 4095 ∧ 0 < 1 ∧ 1 < 2 := by decide

theorem witness_NaNCellSpoilsEveryResult :
    0 < 1 ∧ 1 < 2 ∧ isNaN (cellOf [[fone, 0x7FF0000000000001#64]] 0 1) = true := by decide

/-- A cell for each clause. -/
theorem witness_OneCellTransformIsTheCell :
    isZero (cellOf [[0x8000000000000000#64]] 0 0) = true ∧
    (isZero (cellOf [[0xFFF0000000000000#64]] 0 0) = false ∧ isNaN (cellOf [[0xFFF0000000000000#64]] 0 0) = false) ∧
    isNaN (cellOf [[0x7FF0000000000001#64]] 0 0) = true := by decide

/-- A value for each clause: NaN, Inf, zero; fraction just under one half, exactly one half with an even and an odd
integer below, above one half; and 2^52. -/
theorem witness_RoundingFunction :
    isNaN 0x7FF8000000000000#64 = true ∧ isInf 0xFFF0000000000000#64 = true ∧ isZero 0x8000000000000000#64 = true ∧
    (isFinite 0x3FDFFFFFFFFFFFFF#64 = true ∧ isZero 0x3FDFFFFFFFFFFFFF#64 = false) ∧
    (|toRat 0x3FDFFFFFFFFFFFFF#64| - ⌊|toRat 0x3FDFFFFFFFFFFFFF#64|⌋ < 1 / 2) ∧
    (|toRat 0x3FE0000000000000#64| - ⌊|toRat 0x3FE0000000000000#64|⌋ = 1 / 2 ∧
      ⌊|toRat 0x3FE0000000000000#64|⌋ % 2 = 0) ∧
    (|toRat 0xBFF8000000000000#64| - ⌊|toRat 0xBFF8000000000000#64|⌋ = 1 / 2 ∧
      ⌊|toRat 0xBFF8000000000000#64|⌋ % 2 ≠ 0) ∧
    1 / 2 < |toRat 0x3FE0000000000001#64| - ⌊|toRat 0x3FE0000000000001#64|⌋ ∧
    (2 : ℚ) ^ 52 ≤ |toRat 0x4330000000000000#64| := by decide +kernel

/-- -198.0 = -2 · 99 (V-Q14). -/
theorem witness_QuantRecoversExactMultiplier :
    1 ≤ (99 : BitVec 16).toNat ∧ isFinite 0xC068C00000000000#64 = true ∧
    toRat 0xC068C00000000000#64 = (-2 : ℤ) * ((99 : BitVec 16).toNat : ℚ) ∧
    |(-2 : ℤ) * ((99 : BitVec 16).toNat : ℤ)| < 2 ^ 53 := by decide +kernel

/-- 25.0 / 10 is exact, and a tie (V-Q3). -/
theorem witness_QuantMatchesLevelR :
    let C : Window := [[fzero, fzero, 0x4039000000000000#64]]
    1 ≤ (Config.initial.entry 0 2).toNat ∧ isFinite (cellOf C 0 2) = true ∧
    toRat (fdiv (cellOf C 0 2) (cvt (Config.initial.entry 0 2).toNat)) =
      toRat (cellOf C 0 2) / (Config.initial.entry 0 2).toNat := by decide +kernel

/-- 3.0 / 10 is rounded, and no half-integer lies between the exact quotient and the rounded one. -/
theorem witness_QuantAgreesWithLevelR :
    let C : Window := [[fzero, fzero, 0x4008000000000000#64]]
    let q := toRat (cellOf C 0 2) / (Config.initial.entry 0 2).toNat
    let q' := toRat (fdiv (cellOf C 0 2) (cvt (Config.initial.entry 0 2).toNat))
    Config.initial.Valid ∧ SizeLegal Config.initial 1 3 ∧ WindowFinite 1 3 C ∧ q ≠ q' ∧ ¬ RoundsAcrossHalf q q' := by
  intro C q q'
  have h : ((0 : ℤ) - 1 / 2 < min q q' ∧ max q q' < (0 : ℤ) + 1 / 2) ∧ q ≠ q' := by decide +kernel
  exact ⟨by decide, by decide, by decide, h.2, not_roundsAcrossHalf_of_between 0 h.1.1 h.1.2⟩

/-- The exception can be met: a quotient just above one half that is rounded onto it. -/
theorem witness_quotient_rounded_onto_half : RoundsAcrossHalf (1 / 2 + 1 / 2 ^ 60) (1 / 2) :=
  ⟨by norm_num, 0, by norm_num, by norm_num⟩

theorem witness_QuantOfFiniteIsFiniteInteger :
    1 ≤ (1 : BitVec 16).toNat ∧ isFinite 0x7FEFFFFFFFFFFFFF#64 = true ∧ isFinite 0x8000000000000001#64 = true := by decide

theorem witness_ConstantGridHasOneCoefficient : (0 < 1 ∧ 0 < 1) ∧ 1 < 2 ∧ 2 < 3 := by decide

theorem witness_InverseUndoesForward : (0 < 1 ∧ 0 < 1) ∧ 9 < 10 ∧ 15 < 16 := by decide

theorem witness_OriginCoefficientGivesConstantGrid : (0 < 1 ∧ 0 < 1) ∧ 9 < 10 ∧ 15 < 16 := by decide

end Sys2Proof.Tests
end

/-! SUPPORT. Proofs of the family 10_state: what a completed host move does to the state, said once, and the rules of the
whole machine that follow from it. -/

namespace Sys2Proof

/-! ### A word and its instruction -/

/-- A word whose reserved bits are 0 is the command word of its own fields (30_encoding R70). -/
theorem commandWord_fields {w : Word32} (hz : zeroField w = 0#3) :
    commandWord (opField w) (bankOfBit (srcField w)) (nField w) (mField w) = w := by
  apply BitVec.eq_of_toNat_eq
  have hw := word_toNat_eq_fields w
  rw [hz, BitVec.toNat_ofNat] at hw
  rw [commandWord_toNat, bitOfBank_bankOfBit]
  omega

/-- An instruction's word is the word it was decoded from. -/
theorem encode_of_decode {w : Word32} {i : Instr} (h : decode w = some i) : encode i = w := by
  unfold decode at h
  split at h
  · next hz =>
    have hw := commandWord_fields hz
    split at h
    · next hop => cases h; rwa [show opField w = 1#4 from BitVec.eq_of_toNat_eq hop] at hw
    · next hop => cases h; rwa [show opField w = 2#4 from BitVec.eq_of_toNat_eq hop] at hw
    · next hop => cases h; rwa [show opField w = 3#4 from BitVec.eq_of_toNat_eq hop] at hw
    · cases h
  · cases h

/-- A word outside the opcode map has a cause. -/
theorem causes_ne_nil_of_decode_eq_none {maxDim : Nat} {w : Word32} (h : decode w = none) : causes maxDim w ≠ [] := by
  rcases decode_eq_none.1 h with hz | hop
  · exact List.ne_nil_of_mem (mem_causes_rsv.2 hz)
  · exact List.ne_nil_of_mem (mem_causes_op.2 hop)

/-- The one cause of an instruction's word that is not well formed. -/
theorem causes_encode_of_not_wellFormed {c : Config} {i : Instr} (h : ¬ i.WellFormed c) :
    causes c.maxDim (encode i) = [.dim] := by
  rw [causes_encode]
  exact if_pos (by_contra fun hb => h (causes_encode_eq_nil.1 (by rw [causes_encode, if_neg hb])))

/-- The configuration of `State.reset` meets 00_scope R7 and R8. -/
theorem Config.initial_valid : Config.initial.Valid := by decide

end Sys2Proof

namespace Sys2Proof.Machine

/-! ### Fields of an accepted command's next state -/

section CommandResult
variable (i : Instr) (s : State)
@[simp] theorem commandResult_config : (commandResult i s).config = s.config := rfl
@[simp] theorem commandResult_status : (commandResult i s).status = statusDone := rfl
@[simp] theorem commandResult_err : (commandResult i s).err = s.err := rfl
@[simp] theorem commandResult_lastCmd : (commandResult i s).lastCmd = encode i := rfl
@[simp] theorem commandResult_pending : (commandResult i s).pending = s.pending := rfl
@[simp] theorem commandResult_answers : (commandResult i s).answers = s.answers := rfl
end CommandResult

/-! ### What a completed move does -/

/-- A word address as the number 20_memory R50 makes of its fields. -/
theorem wordAddr_toNat (sp : BitVec 2) (r c : BitVec 12) :
    (wordAddr sp r c).toNat = sp.toNat * 2 ^ 24 + r.toNat * 2 ^ 12 + c.toNat := by
  unfold wordAddr
  rw [BitVec.toNat_append, BitVec.toNat_append, ← Nat.shiftLeft_add_eq_or_of_lt r.isLt,
    ← Nat.shiftLeft_add_eq_or_of_lt c.isLt, Nat.shiftLeft_eq, Nat.shiftLeft_eq]
  omega

/-- An address is built from its own fields (20_memory R50). -/
theorem wordAddr_fields (a : Addr) : wordAddr (spaceField a) (rowField a) (colField a) = a := by
  apply BitVec.eq_of_toNat_eq
  have := a.isLt
  rw [wordAddr_toNat]
  simp only [spaceField, rowField, colField, BitVec.extractLsb'_toNat, Nat.shiftRight_eq_div_pow]
  omega

theorem regOfIndex_eq_cmd {k : Nat} : regOfIndex k = some .cmd ↔ k = 0 := by
  unfold regOfIndex
  split <;> simp_all

theorem gridPlace_ne_reg (maxDim : Nat) (b : Bank) (r c : Nat) (name : RegName) :
    gridPlace maxDim b r c ≠ .reg name := by
  unfold gridPlace
  split <;> simp

/-- CMD stands at no other address than 0 (20_memory R50). -/
theorem place_eq_reg_cmd {maxDim : Nat} {a : Addr} : place maxDim a = .reg .cmd ↔ a = cmdAddr := by
  refine ⟨fun h => ?_, fun h => h ▸ place_cmdAddr maxDim⟩
  unfold place at h
  dsimp only at h
  split at h
  · next hspace =>
    split at h
    · next hrow =>
      split at h
      · next hreg =>
        cases h
        have hcol := regOfIndex_eq_cmd.1 hreg
        apply BitVec.eq_of_toNat_eq
        rw [← wordAddr_fields a, wordAddr_toNat, hspace, hrow, hcol]
        rfl
      · cases h
    · cases h
  · exact absurd h (gridPlace_ne_reg _ _ _ _ _)
  · exact absurd h (gridPlace_ne_reg _ _ _ _ _)
  · split at h <;> cases h

/-- A command word that leads on is refused with its causes, or has none and completes (30_encoding R78). -/
theorem issue_next {w : Word32} {s t : State} (h : issue w s = .next t) :
    (causes s.config.maxDim w ≠ [] ∧ t = refuse (causes s.config.maxDim w) s) ∨
    ∃ i, encode i = w ∧ i.WellFormed s.config ∧ t = commandResult i s := by
  rcases issue_cases w s with ⟨i, hi, he⟩ | ⟨hd, he⟩
  · have hw := encode_of_decode hi
    rw [he] at h
    rcases exec_cases i s with ⟨hwf, hx⟩ | ⟨-, rc, -, hx⟩ | ⟨hwf, -, hx⟩
    · rw [hx] at h
      cases h
      rw [← hw, causes_encode_of_not_wellFormed hwf]
      exact .inl ⟨by simp, rfl⟩
    · rw [hx] at h
      cases h
    · rw [hx] at h
      cases h
      exact .inr ⟨i, hw, hwf, rfl⟩
  · rw [he] at h
    cases h
    exact .inl ⟨causes_ne_nil_of_decode_eq_none hd, rfl⟩

/-- What a host move does to the state where it leads on: one constructor per outcome of 20_memory R54 to R57,
30_encoding R78 and 70 R170. Which word a read answers is left open, since no rule of the registers and banks depends on
it; `hostRead_cases` names the word. -/
inductive MoveEffect : Transaction → State → State → Prop
  | read (a : Addr) (v : Word64) (s : State) : MoveEffect (.hrd a) s (answer v s)
  | readHole (a : Addr) (s : State) : MoveEffect (.hrd a) s (answer 0#64 (flagHole s))
  | ignoredWrite {a : Addr} (v : Word64) (s : State) (ha : a ≠ cmdAddr) : MoveEffect (.hwr a v) s s
  | cellWrite {a : Addr} (v : Word64) {s : State} {b : Bank} {r c : Nat} (ha : a ≠ cmdAddr)
      (hp : place s.config.maxDim a = .cell b r c) : MoveEffect (.hwr a v) s (s.setCell b r c v)
  | holeWrite {a : Addr} (v : Word64) (s : State) (ha : a ≠ cmdAddr) : MoveEffect (.hwr a v) s (flagHole s)
  | refusal {v : Word64} {s : State} (hc : causes s.config.maxDim (commandOf v) ≠ []) :
      MoveEffect (.hwr cmdAddr v) s (refuse (causes s.config.maxDim (commandOf v)) s)
  | command {v : Word64} {s : State} {i : Instr} (hi : encode i = commandOf v) (hwf : i.WellFormed s.config) :
      MoveEffect (.hwr cmdAddr v) s (commandResult i s)
  | reset (s : State) : MoveEffect .reset s (resetEvent s)

theorem hostRead_effect {a : Addr} {s t : State} (h : hostRead a s = .next t) : MoveEffect (.hrd a) s t := by
  rcases hostRead_cases a s with ⟨v, -, he⟩ | ⟨b, r, c, v, -, -, he⟩ | ⟨b, r, c, -, -, he⟩ | ⟨r, c, -, he⟩ | ⟨-, he⟩ <;>
    rw [he] at h <;> cases h
  · exact .read a _ s
  · exact .read a _ s
  · exact .read a _ s
  · exact .readHole a s

theorem hostWrite_effect {a : Addr} {v : Word64} {s t : State} (h : hostWrite a v s = .next t) :
    MoveEffect (.hwr a v) s t := by
  have hne : place s.config.maxDim a ≠ .reg .cmd → a ≠ cmdAddr := mt place_eq_reg_cmd.2
  rcases hostWrite_cases a v s with ⟨hp, he⟩ | ⟨r, hp, hr, he⟩ | ⟨b, r, c, hp, he⟩ | ⟨r, c, hp, he⟩ | ⟨hp, he⟩ <;>
    rw [he] at h
  · cases place_eq_reg_cmd.1 hp
    rcases issue_next h with ⟨hc, rfl⟩ | ⟨i, hi, hwf, rfl⟩
    · exact .refusal hc
    · exact .command hi hwf
  · cases h
    exact .ignoredWrite v s (hne (by simpa [hp] using hr))
  · cases h
    exact .cellWrite v (hne (by simp [hp])) hp
  · cases h
    exact .ignoredWrite v s (hne (by simp [hp]))
  · cases h
    exact .holeWrite v s (hne (by simp [hp]))

theorem transact_effect {m : Transaction} {s t : State} (h : transact m s = .next t) : MoveEffect m s t := by
  cases m with
  | hrd a => exact hostRead_effect h
  | hwr a v => exact hostWrite_effect h
  | reset => cases h; exact .reset s

/-- A step that leads on is idle, or completes the host's next move. -/
theorem step_next {s t : State} (h : step s = .next t) :
    (s.pending = [] ∧ t = s) ∨ ∃ m rest, s.pending = m :: rest ∧ MoveEffect m { s with pending := rest } t := by
  rcases step_cases s with ⟨hp, he⟩ | ⟨m, rest, hp, he⟩
  · rw [he] at h
    cases h
    exact .inl ⟨hp, rfl⟩
  · exact .inr ⟨m, rest, hp, transact_effect (he ▸ h)⟩

/-! ### The bits of ERR under a mask -/

/-- Two words share a bit exactly where their conjunction is not 0. -/
theorem and_ne_zero_iff {x k : Word32} : x &&& k ≠ 0 ↔ ∃ i, x.getLsbD i = true ∧ k.getLsbD i = true := by
  constructor
  · intro hne
    by_contra hno
    refine hne (BitVec.eq_of_getLsbD_eq fun i _ => ?_)
    rw [BitVec.getLsbD_and, BitVec.ofNat_eq_ofNat, BitVec.getLsbD_zero, Bool.and_eq_false_imp]
    exact fun hx => Bool.eq_false_iff.2 fun hk => hno ⟨i, hx, hk⟩
  · rintro ⟨i, hx, hk⟩ h0
    have hbit : (x &&& k).getLsbD i = true := by rw [BitVec.getLsbD_and, hx, hk, Bool.and_self]
    rw [h0, BitVec.ofNat_eq_ofNat, BitVec.getLsbD_zero] at hbit
    cases hbit

/-- A recorded bit of a mask stays recorded. -/
theorem errWith_and_ne_zero {e k : Word32} (cs : List Cause) (h : e &&& k ≠ 0) : errWith cs e &&& k ≠ 0 := by
  obtain ⟨i, he, hk⟩ := and_ne_zero_iff.1 h
  exact and_ne_zero_iff.2 ⟨i, errWith_sticky cs e i he, hk⟩

/-- The bit of a cause of the list is recorded. -/
theorem errWith_and_causeBit_ne_zero {cs : List Cause} {c : Cause} (hc : c ∈ cs) {k : Word32} (e : Word32)
    (h : causeBit c &&& k ≠ 0) : errWith cs e &&& k ≠ 0 := by
  obtain ⟨i, hi, hk⟩ := and_ne_zero_iff.1 h
  refine and_ne_zero_iff.2 ⟨i, ?_, hk⟩
  rw [errWith_getLsbD, List.any_eq_true.2 ⟨c, hc, hi⟩, Bool.or_true]

/-- A refused word records one of the three causes of a refusal (60_exceptions R155). -/
theorem errWith_causes_and_ne_zero {maxDim : Nat} {w : Word32} (h : causes maxDim w ≠ []) (e : Word32) :
    errWith (causes maxDim w) e &&& 0x7#32 ≠ 0 := by
  obtain ⟨c, hc⟩ := List.exists_mem_of_ne_nil _ h
  apply errWith_and_causeBit_ne_zero hc
  cases c with
  | op => decide
  | rsv => decide
  | dim => decide
  | addr => exact absurd hc not_mem_causes_addr

/-! ### The three values of STATUS -/

theorem statusDone_ne_zero : statusDone ≠ 0 := by decide

theorem statusRefused_ne_zero : statusRefused ≠ 0 := by decide

theorem statusDone_ne_statusRefused : statusDone ≠ statusRefused := by decide

/-! ### The invariant -/

/-- The host's lists are no part of the invariant. -/
theorem State.Inv.withHost {s : State} (h : s.Inv) (pending : List Transaction) (answers : List Word64) :
    ({ s with pending := pending, answers := answers } : State).Inv := { h with }

theorem State.Inv.bank_inside {s : State} (h : s.Inv) (b : Bank) : Grid.inside s.config.maxDim (s.mem.bank b) := by
  cases b
  · exact h.ga_inside
  · exact h.gb_inside

theorem State.Inv.flagHole {s : State} (h : s.Inv) : (flagHole s).Inv :=
  { h with
    err_legal := errWith_lt _ h.err_legal
    refused_has_cause := fun hs => errWith_and_ne_zero _ (h.refused_has_cause hs) }

theorem State.Inv.setCell {s : State} (h : s.Inv) (b : Bank) {r c : Nat} (hr : r < s.config.maxDim)
    (hc : c < s.config.maxDim) (hc' : c < 4096) (v : F64) : (s.setCell b r c v).Inv :=
  have hin := Memory.write_inside h.bank_inside b hr hc hc' v
  { h with
    memory_wf := Memory.write_wf h.memory_wf b r c v
    ga_inside := hin .ga
    gb_inside := hin .gb }

theorem State.Inv.refuse {s : State} (h : s.Inv) {w : Word32} (hc : causes s.config.maxDim w ≠ []) :
    (refuse (causes s.config.maxDim w) s).Inv :=
  { h with
    status_legal := .inr (.inr rfl)
    err_legal := errWith_lt _ h.err_legal
    done_has_command := fun hs => absurd hs statusDone_ne_statusRefused.symm
    refused_has_cause := fun _ => errWith_causes_and_ne_zero hc _
    fresh_has_none := fun hs => absurd hs statusRefused_ne_zero }

theorem State.Inv.commandResult {s : State} (h : s.Inv) {i : Instr} (hwf : i.WellFormed s.config) :
    (commandResult i s).Inv :=
  have hlegal := causes_encode_eq_nil.2 hwf
  have ⟨⟨_, hrows⟩, _, hcols⟩ := hwf
  have hin := Memory.writeWindow_inside h.bank_inside (otherBank (sourceOf i)) hrows hcols
    (le_of_lt i.cols.isLt) (resultOf s.config i (sourceWindow s.mem (sourceOf i) i.rows.toNat i.cols.toNat))
  { h with
    memory_wf := Memory.writeWindow_wf h.memory_wf _ _ _ _
    ga_inside := hin .ga
    gb_inside := hin .gb
    status_legal := .inr (.inl rfl)
    lastCmd_legal := .inr hlegal
    done_has_command := fun _ => hlegal
    refused_has_cause := fun hs => absurd hs statusDone_ne_statusRefused
    fresh_has_none := fun hs => absurd hs statusDone_ne_zero }

theorem resetOf_inv {c : Config} (hc : c.Valid) : (State.resetOf c).Inv where
  config_valid := hc
  memory_wf := Memory.reset_wf c
  ga_inside := List.forall_mem_nil _
  gb_inside := List.forall_mem_nil _
  status_legal := .inl rfl
  err_legal := (by decide : (0 : Word32).toNat < 16)
  lastCmd_legal := .inl rfl
  done_has_command := fun hs => absurd hs statusDone_ne_zero.symm
  refused_has_cause := fun hs => absurd hs statusRefused_ne_zero.symm
  fresh_has_none := fun _ => rfl

theorem MoveEffect.inv {m : Transaction} {s t : State} (he : MoveEffect m s t) (h : s.Inv) : t.Inv := by
  cases he with
  | read a v => exact h.withHost _ _
  | readHole a => exact h.flagHole.withHost _ _
  | ignoredWrite v => exact h
  | cellWrite v ha hp =>
    obtain ⟨hr, hc, -, hc'⟩ := place_cell_bounds hp
    exact h.setCell _ hr hc hc' v
  | holeWrite v => exact h.flagHole
  | refusal hc => exact h.refuse hc
  | command hi hwf => exact h.commandResult hwf
  | reset => exact (resetOf_inv h.config_valid).withHost _ _

/-- Settles O31: every outcome of the host's next move keeps the invariant. -/
theorem stepKeepsInvariant : Obligations.StepKeepsInvariant := by
  intro s t h hstep
  rcases step_next hstep with ⟨-, rfl⟩ | ⟨m, rest, -, he⟩
  · exact h
  · exact he.inv (h.withHost rest s.answers)

/-- Settles O16: a completed command's window is a function of the instruction, the configuration and the source window,
and two states that agree on these hand the operation the same grid. -/
theorem resultDependsOnWindowOnly : Obligations.ResultDependsOnWindowOnly := by
  intro i s s' t hcfg hsrc hwf hexec
  have hwf' : i.WellFormed s'.config := hcfg ▸ hwf
  have hwin : sourceWindow s.mem (sourceOf i) i.rows.toNat i.cols.toNat
      = sourceWindow s'.mem (sourceOf i) i.rows.toNat i.cols.toNat := sourceWindow_congr hsrc
  rcases exec_cases i s with ⟨hn, -⟩ | ⟨-, rc, -, hx⟩ | ⟨-, hdef, hx⟩
  · exact absurd hwf hn
  · rw [hx] at hexec
    cases hexec
  · rw [hx] at hexec
    cases hexec
    have hw' : s'.WindowWritten (sourceOf i) i.rows.toNat i.cols.toNat := fun r hr c hc => by
      rw [← hsrc r hr c hc]
      exact Option.isSome_iff_exists.2 (firstUndef_eq_none.1 hdef r hr c hc)
    refine ⟨_, exec_of_wellFormed hwf' hw', fun r hr c hc => ?_⟩
    have hc' : c < 4096 := hc.trans i.cols.isLt
    rw [commandResult_cell _ _ _ _ _ hc', commandResult_cell _ _ _ _ _ hc', if_pos ⟨rfl, hr, hc⟩,
      if_pos ⟨rfl, hr, hc⟩, hcfg, hwin]

/-! ### Rules of the whole machine -/

theorem MoveEffect.config_eq {m : Transaction} {s t : State} (he : MoveEffect m s t) : t.config = s.config := by
  cases he <;> rfl

/-- Settles O32: no outcome of a move writes the constants. -/
theorem configurationNeverChanges : Obligations.ConfigurationNeverChanges := by
  intro s t hstep
  rcases step_next hstep with ⟨-, rfl⟩ | ⟨m, rest, -, he⟩
  · rfl
  · exact he.config_eq

/-- ERR changes by recording causes or by reset only (10_state R26). -/
theorem MoveEffect.err_eq_errWith {m : Transaction} {s t : State} (he : MoveEffect m s t) (hm : m ≠ .reset) :
    ∃ cs, t.err = errWith cs s.err := by
  cases he with
  | read a v => exact ⟨[], rfl⟩
  | readHole a => exact ⟨[.addr], rfl⟩
  | ignoredWrite v => exact ⟨[], rfl⟩
  | cellWrite v => exact ⟨[], rfl⟩
  | holeWrite v => exact ⟨[.addr], rfl⟩
  | refusal => exact ⟨_, rfl⟩
  | command => exact ⟨[], rfl⟩
  | reset => exact absurd rfl hm

/-- Settles O33: a move that is no reset at most records causes, and recording keeps every bit. -/
theorem errBitsAreSticky : Obligations.ErrBitsAreSticky := by
  intro s t k hstep hreset hk
  rcases step_next hstep with ⟨-, rfl⟩ | ⟨m, rest, hp, he⟩
  · exact hk
  · obtain ⟨cs, hcs⟩ := he.err_eq_errWith (by simpa [hp] using hreset)
    rw [hcs]
    exact errWith_sticky cs _ k hk

/-- Settles O34: a command write either is refused with its causes or completes a word that has none. -/
theorem statusReportsLastCommandWrite : Obligations.StatusReportsLastCommandWrite := by
  intro s t v rest hp hstep
  rw [step_cons hp] at hstep
  cases transact_effect hstep with
  | ignoredWrite _ _ ha => exact absurd rfl ha
  | cellWrite _ ha => exact absurd rfl ha
  | holeWrite _ _ ha => exact absurd rfl ha
  | refusal hc =>
    rw [refuse_status]
    exact ⟨iff_of_false (by decide) hc, iff_of_true (by decide) hc, by decide⟩
  | command hi hwf =>
    have hc : causes s.config.maxDim (commandOf v) = [] := hi ▸ causes_encode_eq_nil.2 hwf
    rw [commandResult_status]
    exact ⟨iff_of_true (by decide) hc, iff_of_false (by decide) (not_not.2 hc), by decide⟩

/-- A move that is neither a command write nor a reset leaves STATUS and LASTCMD alone. -/
theorem MoveEffect.status_lastCmd_eq {m : Transaction} {s t : State} (he : MoveEffect m s t) (hm : m ≠ .reset)
    (hcmd : ∀ v, m ≠ .hwr cmdAddr v) : t.status = s.status ∧ t.lastCmd = s.lastCmd := by
  cases he with
  | read a v => exact ⟨rfl, rfl⟩
  | readHole a => exact ⟨rfl, rfl⟩
  | ignoredWrite v => exact ⟨rfl, rfl⟩
  | cellWrite v => exact ⟨rfl, rfl⟩
  | holeWrite v => exact ⟨rfl, rfl⟩
  | refusal => exact absurd rfl (hcmd _)
  | command => exact absurd rfl (hcmd _)
  | reset => exact absurd rfl hm

/-- A write that changes LASTCMD wrote a legal word to CMD, and LASTCMD is that word. -/
theorem MoveEffect.lastCmd_of_ne {a : Addr} {v : Word64} {s t : State} (he : MoveEffect (.hwr a v) s t)
    (hne : t.lastCmd ≠ s.lastCmd) : t.lastCmd = commandOf v ∧ causes s.config.maxDim (commandOf v) = [] := by
  cases he with
  | ignoredWrite v => exact absurd rfl hne
  | cellWrite v => exact absurd rfl hne
  | holeWrite v => exact absurd rfl hne
  | refusal => exact absurd rfl hne
  | command hi hwf => exact ⟨hi, hi ▸ causes_encode_eq_nil.2 hwf⟩

/-- Settles O35: only the two outcomes of a command write, and reset, touch STATUS or LASTCMD. -/
theorem onlyCommandWritesTouchStatus : Obligations.OnlyCommandWritesTouchStatus := by
  intro s t hstep hreset
  rcases step_next hstep with ⟨-, rfl⟩ | ⟨m, rest, hp, he⟩
  · exact ⟨fun _ => ⟨rfl, rfl⟩, fun _ _ hne => absurd rfl hne⟩
  · simp only [hp, List.head?_cons, ne_eq, Option.some.injEq] at hreset ⊢
    refine ⟨he.status_lastCmd_eq hreset, ?_⟩
    rintro v rfl
    exact he.lastCmd_of_ne

/-- Of the moves only a reset makes a written cell `UNDEF`. -/
theorem MoveEffect.cell_isSome {m : Transaction} {s t : State} (he : MoveEffect m s t) (hm : m ≠ .reset) {b : Bank}
    {r c : Nat} (hc : c < 4096) (hw : (s.cell b r c).isSome = true) : (t.cell b r c).isSome = true := by
  cases he with
  | read a v => exact hw
  | readHole a => exact hw
  | ignoredWrite v => exact hw
  | cellWrite v ha hp =>
    obtain ⟨-, -, -, hcol⟩ := place_cell_bounds hp
    rw [cell_eq_read, setCell_mem, Memory.read_write _ _ _ _ _ _ _ _ hcol hc]
    split
    · rfl
    · exact hw
  | holeWrite v => exact hw
  | refusal => exact hw
  | command =>
    rw [commandResult_cell _ _ _ _ _ hc]
    split
    · rfl
    · exact hw
  | reset => exact absurd rfl hm

/-- Settles O36: every write of a cell leaves a value in it. -/
theorem writtenCellsStayWritten : Obligations.WrittenCellsStayWritten := by
  intro s t b r c hc hstep hreset hw
  rcases step_next hstep with ⟨-, rfl⟩ | ⟨m, rest, hp, he⟩
  · exact hw
  · exact he.cell_isSome (by simpa [hp] using hreset) hc hw

/-! ### CAP and reset -/

/-- CAP as the number the table of 10_state R28 makes of its fields. -/
theorem capWord_toNat {c : Config} (h : c.maxDim < 2 ^ 12) :
    (capWord c).toNat = (rmodeBit c.roundMode).toNat * 2 ^ 16 + c.maxDim := by
  have hmode := (rmodeBit c.roundMode).isLt
  unfold capWord
  simp only [BitVec.toNat_append]
  rw [← Nat.shiftLeft_add_eq_or_of_lt (BitVec.ofNat 12 c.maxDim).isLt, ← Nat.shiftLeft_add_eq_or_of_lt (0#4).isLt,
    ← Nat.shiftLeft_add_eq_or_of_lt hmode]
  simp only [Nat.shiftLeft_eq, BitVec.toNat_ofNat, Nat.mod_eq_of_lt h]
  omega

/-- Settles O25: MAXDIM of a valid configuration fits in its twelve bits. -/
theorem capHoldsMaxDimAndMode : Obligations.CapHoldsMaxDimAndMode := by
  rintro c ⟨-, hmax, -⟩
  have hmode : (rmodeBit c.roundMode).toNat = if c.roundMode = .halfAway then 0 else 1 := by
    cases c.roundMode <;> rfl
  have hle : (if c.roundMode = .halfAway then 0 else 1) ≤ 1 := by split <;> decide
  rw [capWord_toNat (by omega), hmode]
  refine ⟨?_, ?_, ?_, ?_⟩ <;> omega

/-- Right after reset every cell is `UNDEF` (10_state R33). -/
theorem resetOf_cell (c : Config) (b : Bank) (r k : Nat) : (State.resetOf c).cell b r k = none := by
  cases b <;> rfl

/-- Settles O29: the reset table of 10_state R33, field by field. -/
theorem resetStateHasResetValues : Obligations.ResetStateHasResetValues :=
  ⟨fun c => ⟨rfl, rfl, rfl, rfl, resetOf_cell c⟩, rfl⟩

/-- Settles O30: the reset state of any valid configuration meets the invariant, and the initial one is valid. -/
theorem resetStateMeetsInvariant : Obligations.ResetStateMeetsInvariant :=
  ⟨fun _ => resetOf_inv, resetOf_inv Config.initial_valid⟩

end Sys2Proof.Machine

/-! SUPPORT. Proofs of the family 20_memory: what a host access does, by the place its address names; the bytes of a
word; and what a command leaves alone. -/

namespace Sys2Proof.Machine

/-! ### The fields of an address and the holes of the map -/

section AddressFields
variable (a : Addr)

theorem spaceField_toNat : (spaceField a).toNat = a.toNat / 2 ^ 24 := by
  have := a.isLt
  simp only [spaceField, BitVec.extractLsb'_toNat, Nat.shiftRight_eq_div_pow]
  omega

theorem rowField_toNat : (rowField a).toNat = a.toNat / 2 ^ 12 % 4096 := by
  simp only [rowField, BitVec.extractLsb'_toNat, Nat.shiftRight_eq_div_pow]

theorem colField_toNat : (colField a).toNat = a.toNat % 4096 := by
  simp only [colField, BitVec.extractLsb'_toNat, Nat.shiftRight_zero]

end AddressFields

theorem regOfIndex_eq_none {k : Nat} : regOfIndex k = none ↔ 4 < k := by
  unfold regOfIndex
  split <;> simp_all
  omega

theorem gridPlace_eq_hole {maxDim : Nat} {b : Bank} {r c : Nat} :
    gridPlace maxDim b r c = .hole ↔ maxDim ≤ r ∨ maxDim ≤ c := by
  unfold gridPlace
  split
  · next h => simp only [reduceCtorEq, false_iff]; omega
  · next h => simp only [true_iff]; omega

/-- The holes of the register space (20_memory R57). -/
theorem place_eq_hole_of_register_space (maxDim : Nat) {a : Addr} (hs : (spaceField a).toNat = 0)
    (h : (rowField a).toNat ≠ 0 ∨ 4 < (colField a).toNat) : place maxDim a = .hole := by
  simp only [place, hs]
  split
  · next hr => rw [regOfIndex_eq_none.2 (h.resolve_left (absurd hr))]
  · rfl

/-- The holes of the two grid spaces (20_memory R57). -/
theorem place_eq_hole_of_grid_space {maxDim : Nat} {a : Addr}
    (hs : (spaceField a).toNat = 1 ∨ (spaceField a).toNat = 2)
    (h : maxDim ≤ (rowField a).toNat ∨ maxDim ≤ (colField a).toNat) : place maxDim a = .hole := by
  rcases hs with hs | hs <;> simp only [place, hs] <;> exact gridPlace_eq_hole.2 h

/-- The holes of the table space (20_memory R57). -/
theorem place_eq_hole_of_table_space (maxDim : Nat) {a : Addr} (hs : (spaceField a).toNat = 3)
    (h : 8 ≤ (rowField a).toNat ∨ 8 ≤ (colField a).toNat) : place maxDim a = .hole := by
  simp only [place, hs]
  exact if_neg (by omega)

/-! ### One rule per place of a host access -/

section HostRead
variable {a : Addr} {s : State}

theorem hostRead_reg {reg : RegName} (h : place s.config.maxDim a = .reg reg) :
    hostRead a s = .next (answer ((s.reg reg).zeroExtend 64) s) := by
  unfold hostRead
  rw [h]

theorem hostRead_cell {b : Bank} {r c : Nat} {v : F64} (h : place s.config.maxDim a = .cell b r c)
    (hv : s.cell b r c = some v) : hostRead a s = .next (answer v s) := by
  unfold hostRead
  simp only [h, hv]

theorem hostRead_undef {b : Bank} {r c : Nat} (h : place s.config.maxDim a = .cell b r c)
    (hv : s.cell b r c = none) : hostRead a s = .fault (.undefRead b r c) := by
  unfold hostRead
  simp only [h, hv]

theorem hostRead_table {r c : Nat} (h : place s.config.maxDim a = .table r c) :
    hostRead a s = .next (answer ((s.config.entry r c).zeroExtend 64) s) := by
  unfold hostRead
  rw [h]

theorem hostRead_hole (h : place s.config.maxDim a = .hole) : hostRead a s = .next (answer 0#64 (flagHole s)) := by
  unfold hostRead
  rw [h]

end HostRead

section HostWrite
variable {a : Addr} {s : State} (v : Word64)

theorem hostWrite_cmd (h : place s.config.maxDim a = .reg .cmd) : hostWrite a v s = issue (commandOf v) s := by
  unfold hostWrite
  rw [h]

theorem hostWrite_reg {reg : RegName} (hne : reg ≠ .cmd) (h : place s.config.maxDim a = .reg reg) :
    hostWrite a v s = .next s := by
  unfold hostWrite
  rw [h]
  cases reg with
  | cmd => exact absurd rfl hne
  | status | err | lastCmd | cap => rfl

theorem hostWrite_cell {b : Bank} {r c : Nat} (h : place s.config.maxDim a = .cell b r c) :
    hostWrite a v s = .next (s.setCell b r c v) := by
  unfold hostWrite
  rw [h]

theorem hostWrite_table {r c : Nat} (h : place s.config.maxDim a = .table r c) : hostWrite a v s = .next s := by
  unfold hostWrite
  rw [h]

theorem hostWrite_hole (h : place s.config.maxDim a = .hole) : hostWrite a v s = .next (flagHole s) := by
  unfold hostWrite
  rw [h]

end HostWrite

/-- The step where the host's next move is a read. -/
theorem step_hrd {s : State} {a : Addr} {rest : List Transaction} (h : s.pending = .hrd a :: rest) :
    step s = hostRead a { s with pending := rest } := step_cons h

/-- The step where the host's next move is a write. -/
theorem step_hwr {s : State} {a : Addr} {v : Word64} {rest : List Transaction} (h : s.pending = .hwr a v :: rest) :
    step s = hostWrite a v { s with pending := rest } := step_cons h

/-! ### A write of what stands there already -/

theorem Grid.mem_of_get {g : Grid} {j : Nat} {x : F64} (h : Grid.get g j = some x) : (j, x) ∈ g := by
  induction g with
  | nil => cases h
  | cons e g ih =>
    simp only [Grid.get] at h
    split at h
    · next hj => cases h; subst hj; exact List.mem_cons_self
    · exact List.mem_cons_of_mem _ (ih h)

/-- In a bank in canonical form a write of a key's own value changes nothing. -/
theorem Grid.set_eq_self {g : Grid} (hwf : Grid.wf g) {j : Nat} {x : F64} (h : Grid.get g j = some x) :
    Grid.set g j x = g := by
  induction g with
  | nil => cases h
  | cons e g ih =>
    obtain ⟨k, v⟩ := e
    simp only [Grid.wf, List.map_cons, List.pairwise_cons] at hwf
    obtain ⟨hk, hg⟩ := hwf
    simp only [Grid.get] at h
    split at h
    · next hj => cases h; subst hj; simp [Grid.set]
    · next hj =>
      have hkj : k < j := hk j (List.mem_map_of_mem (Grid.mem_of_get h))
      simp [Grid.set, hkj.not_gt, hj, ih hg h]

theorem Memory.withBank_bank_self (m : Memory) (b : Bank) : m.withBank b (m.bank b) = m := by
  cases b <;> rfl

theorem Memory.write_eq_self {m : Memory} (hwf : Memory.wf m) {b : Bank} {r c : Nat} {v : F64}
    (h : m.read b r c = some v) : m.write b r c v = m := by
  unfold Memory.write
  rw [Grid.set_eq_self (Memory.bank_wf hwf b) h, Memory.withBank_bank_self]

/-- A window write changes nothing where the window already holds the result. -/
theorem Memory.writeWindow_eq_self {mem : Memory} (hwf : Memory.wf mem) {b : Bank} {n m : Nat} {T : Nat → Nat → F64}
    (h : ∀ r < n, ∀ c < m, mem.read b r c = some (T r c)) : mem.writeWindow b n m T = mem := by
  have hcells : ∀ rc ∈ windowCells n m, mem.read b rc.1 rc.2 = some (T rc.1 rc.2) := fun rc hrc =>
    h rc.1 (mem_windowCells.1 hrc).1 rc.2 (mem_windowCells.1 hrc).2
  unfold Memory.writeWindow
  generalize windowCells n m = L at hcells
  induction L with
  | nil => rfl
  | cons e L ih =>
    rw [List.foldl_cons, Memory.write_eq_self hwf (hcells e List.mem_cons_self)]
    exact ih fun rc hrc => hcells rc (List.mem_cons_of_mem _ hrc)

/-! ### What a command leaves alone -/

/-- The outcomes of `exec` that go on: a refusal for a dimension, or a completed command. -/
theorem exec_next {i : Instr} {s t : State} (h : exec i s = .next t) :
    (¬ i.WellFormed s.config ∧ t = refuse [.dim] s) ∨
    (i.WellFormed s.config ∧ firstUndef s.mem (sourceOf i) i.rows.toNat i.cols.toNat = none ∧
      t = commandResult i s) := by
  rcases exec_cases i s with ⟨hwf, hx⟩ | ⟨-, rc, -, hx⟩ | ⟨hwf, hdef, hx⟩ <;> rw [hx] at h <;> cases h
  · exact .inl ⟨hwf, rfl⟩
  · exact .inr ⟨hwf, hdef, rfl⟩

theorem exec_of_not_wellFormed {i : Instr} {s : State} (h : ¬ i.WellFormed s.config) :
    exec i s = .next (refuse [.dim] s) := by
  rcases exec_cases i s with ⟨-, hx⟩ | ⟨hwf, -⟩ | ⟨hwf, -⟩
  · exact hx
  · exact absurd hwf h
  · exact absurd hwf h

theorem refuse_idem (cs : List Cause) (s : State) : refuse cs (refuse cs s) = refuse cs s := by
  unfold refuse
  simp only [errWith_idem]

/-- A cell of the source bank is as before. -/
theorem commandResult_cell_source (i : Instr) (s : State) (r c : Nat) :
    (commandResult i s).cell (sourceOf i) r c = s.cell (sourceOf i) r c :=
  congrArg (Grid.get · (cellKey r c)) (commandResult_bank_source i s)

/-- The destination window already holds the result of the source window, which the command left alone (20_memory
R58). -/
theorem commandResult_idem (i : Instr) {s : State} (hwf : Memory.wf s.mem) :
    commandResult i (commandResult i s) = commandResult i s := by
  have hsrc : sourceWindow (commandResult i s).mem (sourceOf i) i.rows.toNat i.cols.toNat
      = sourceWindow s.mem (sourceOf i) i.rows.toNat i.cols.toNat :=
    sourceWindow_congr fun r _ c _ => commandResult_cell_source i s r c
  have hmem : (commandResult i s).mem.writeWindow (otherBank (sourceOf i)) i.rows.toNat i.cols.toNat
      (resultOf s.config i (sourceWindow s.mem (sourceOf i) i.rows.toNat i.cols.toNat)) = (commandResult i s).mem := by
    refine Memory.writeWindow_eq_self (Memory.writeWindow_wf hwf _ _ _ _) fun r hr c hc => ?_
    exact (commandResult_cell i s _ r c (hc.trans i.cols.isLt)).trans (if_pos ⟨rfl, hr, hc⟩)
  calc commandResult i (commandResult i s)
      = accept (encode i) { commandResult i s with
          mem := (commandResult i s).mem.writeWindow (otherBank (sourceOf i)) i.rows.toNat i.cols.toNat
            (resultOf s.config i (sourceWindow (commandResult i s).mem (sourceOf i) i.rows.toNat i.cols.toNat)) } := rfl
    _ = accept (encode i) { commandResult i s with mem := (commandResult i s).mem } := by rw [hsrc, hmem]
    _ = commandResult i s := rfl

/-- Settles O15: a command that goes on is refused and changes ERR and STATUS only, or completes and writes its
window. -/
theorem commandWritesOnlyItsWindow : Obligations.CommandWritesOnlyItsWindow := by
  intro i s t hexec
  rcases exec_next hexec with ⟨-, rfl⟩ | ⟨-, -, rfl⟩
  · exact ⟨fun b r c _ hne => absurd (refuse_cell s _ b r c) hne, rfl, rfl, rfl, rfl, .inr ⟨rfl, rfl, rfl, rfl⟩⟩
  · refine ⟨fun b r c hc hne => ?_, commandResult_bank_source i s, rfl, rfl, rfl, .inl ⟨rfl, rfl, rfl⟩⟩
    rw [commandResult_cell _ _ _ _ _ hc] at hne
    by_contra hout
    exact hne (if_neg hout)

/-- Settles O18: a refusal and a completed command are both idempotent, and neither changes what decides between them. -/
theorem secondRunChangesNothing : Obligations.SecondRunChangesNothing := by
  intro i s t hmem hexec
  rcases exec_next hexec with ⟨hwf, rfl⟩ | ⟨hwf, hdef, rfl⟩
  · rw [exec_of_not_wellFormed (s := refuse [.dim] s) hwf, refuse_idem]
  · have hw : (commandResult i s).WindowWritten (sourceOf i) i.rows.toNat i.cols.toNat := fun r hr c hc => by
      rw [commandResult_cell_source]
      exact Option.isSome_iff_exists.2 (firstUndef_eq_none.1 hdef r hr c hc)
    rw [exec_of_wellFormed (s := commandResult i s) hwf hw, commandResult_idem i hmem]

/-! ### Host accesses -/

/-- A cell after a write of one cell. -/
theorem setCell_cell (s : State) (b : Bank) (r : Nat) {c : Nat} (v : F64) (hc : c < 4096) (b' : Bank) (r' : Nat)
    {c' : Nat} (hc' : c' < 4096) :
    (s.setCell b r c v).cell b' r' c' = if b' = b ∧ r' = r ∧ c' = c then some v else s.cell b' r' c' :=
  Memory.read_write _ _ _ _ _ _ _ _ hc hc'

theorem setCell_cell_same (s : State) (b : Bank) (r : Nat) {c : Nat} (v : F64) (hc : c < 4096) :
    (s.setCell b r c v).cell b r c = some v := by
  rw [setCell_cell s b r v hc b r hc, if_pos ⟨rfl, rfl, rfl⟩]

section CellSteps
variable {s : State} {b : Bank} {r c : BitVec 12} {v : Word64} {rest : List Transaction}

theorem step_write_of_cell (hp : s.pending = .hwr (wordAddr (bankSpace b) r c) v :: rest)
    (hr : r.toNat < s.config.maxDim) (hc : c.toNat < s.config.maxDim) :
    step s = .next (({ s with pending := rest } : State).setCell b r.toNat c.toNat v) :=
  (step_hwr hp).trans (hostWrite_cell v (place_cell _ b hr hc))

theorem step_read_of_cell (hv : s.cell b r.toNat c.toNat = some v)
    (hp : s.pending = .hrd (wordAddr (bankSpace b) r c) :: rest) (hr : r.toNat < s.config.maxDim)
    (hc : c.toNat < s.config.maxDim) : step s = .next (answer v { s with pending := rest }) :=
  (step_hrd hp).trans (hostRead_cell (place_cell _ b hr hc) hv)

theorem step_read_of_undef (hv : s.cell b r.toNat c.toNat = none)
    (hp : s.pending = .hrd (wordAddr (bankSpace b) r c) :: rest) (hr : r.toNat < s.config.maxDim)
    (hc : c.toNat < s.config.maxDim) : step s = .fault (.undefRead b r.toNat c.toNat) :=
  (step_hrd hp).trans (hostRead_undef (place_cell _ b hr hc) hv)

end CellSteps

/-- Settles O21: the write leaves `v` in the cell and the read answers what the cell holds. -/
theorem cellReadReturnsWrittenBits : Obligations.CellReadReturnsWrittenBits := by
  intro s b r c v rest hr hc hp
  have hwrite := step_write_of_cell hp hr hc
  have hcell := setCell_cell_same { s with pending := .hrd (wordAddr (bankSpace b) r c) :: rest } b r.toNat v c.isLt
  have hread := step_read_of_cell (rest := rest) hcell rfl hr hc
  refine ⟨_, (runFor_succ_of_next hwrite 1).trans (runFor_succ_of_next hread 0), rfl, hcell, ?_, rfl, rfl, rfl, rfl,
    rfl⟩
  intro b' r' c' hc' hother
  exact (setCell_cell _ _ _ _ c.isLt _ _ hc').trans (if_neg hother)

/-- Settles O22: both outcomes of a host read of a cell. -/
theorem cellReadReturnsContentOrFaults : Obligations.CellReadReturnsContentOrFaults := by
  intro s b r c rest hr hc hp
  exact ⟨fun v hv => step_read_of_cell hv hp hr hc, fun hv => step_read_of_undef hv hp hr hc⟩

/-- Settles O26: the condition names the holes of the four spaces, and an access to a hole is flagged. -/
theorem holeAccessIsFlagged : Obligations.HoleAccessIsFlagged := by
  intro s a rest space r c hcond
  have hplace : place s.config.maxDim a = .hole := by
    simp only [space, r, c, ← spaceField_toNat, ← rowField_toNat, ← colField_toNat] at hcond
    rcases hcond with ⟨hs, h⟩ | ⟨hs, h⟩ | ⟨hs, h⟩
    · exact place_eq_hole_of_register_space _ hs h
    · exact place_eq_hole_of_grid_space hs h
    · exact place_eq_hole_of_table_space _ hs h
  exact ⟨fun hp => (step_hrd hp).trans (hostRead_hole hplace),
    fun v hp => (step_hwr hp).trans (hostWrite_hole v hplace)⟩

/-- Settles O20: the fields of an address stand side by side. -/
theorem wordAddressFields : Obligations.WordAddressFields := ⟨wordAddr_toNat, wordAddr_fields⟩

/-- Settles O23: the place of a register's address is that register. -/
theorem registerSpaceAccess : Obligations.RegisterSpaceAccess := by
  intro s rest
  refine ⟨fun reg hp => ?_, fun reg v hne hp => (step_hwr hp).trans (hostWrite_reg v hne (place_reg _ reg)),
    fun v hp => (step_hwr hp).trans (hostWrite_cmd v (place_reg _ .cmd))⟩
  rw [step_hrd hp, hostRead_reg (place_reg _ reg)]
  cases reg <;> rfl

/-- An entry named by indices below 8 is the table's own (41_quant R104). -/
theorem entry_of_lt (cfg : Config) {i j : Nat} (hi : i < 8) (hj : j < 8) :
    cfg.entry i j = (cfg.qtable[i]'hi)[j]'hj := by
  simp only [Config.entry, Nat.mod_eq_of_lt hi, Nat.mod_eq_of_lt hj]

/-- Settles O24: the place of a table address is its entry. -/
theorem tableSpaceAccess : Obligations.TableSpaceAccess := by
  intro s r c hr hc rest
  have hrow : (BitVec.ofNat 12 r).toNat = r := Nat.mod_eq_of_lt (hr.trans (by decide))
  have hcol : (BitVec.ofNat 12 c).toNat = c := Nat.mod_eq_of_lt (hc.trans (by decide))
  have hplace : place s.config.maxDim (wordAddr 3#2 (BitVec.ofNat 12 r) (BitVec.ofNat 12 c)) = .table r c := by
    rw [place_table _ (hrow.trans_lt hr) (hcol.trans_lt hc), hrow, hcol]
  rw [← entry_of_lt s.config hr hc]
  exact ⟨fun hp => (step_hrd hp).trans (hostRead_table hplace),
    fun v hp => (step_hwr hp).trans (hostWrite_table v hplace)⟩

/-! ### The platform's bytes -/

/-- Byte k of a word is its bits 8k + 7 to 8k (20_memory R52). -/
theorem bytesOfWord_getElem (w : Word64) {k : Nat} (hk : k < 8) :
    (bytesOfWord w)[k]'hk = w.extractLsb' (8 * k) 8 := by
  interval_cases k <;> rfl

/-- The bits just above a byte, followed by that byte. -/
theorem extractLsb'_append_byte (w : Word64) (start len : Nat) :
    w.extractLsb' (start + 8) len ++ w.extractLsb' start 8 = w.extractLsb' start (len + 8) := by
  rw [BitVec.extractLsb'_append_extractLsb'_eq_extractLsb' rfl]

theorem wordOfBytes_bytesOfWord (w : Word64) : wordOfBytes (bytesOfWord w) = w := by
  unfold wordOfBytes
  simp only [bytesOfWord_getElem, extractLsb'_append_byte]
  exact BitVec.extractLsb'_eq_self

theorem platformWordAddr_eq_ok {base p : Nat} {a : Addr} :
    platformWordAddr base p = .ok a ↔ p = platformByteAddr base a := by
  have := a.isLt
  unfold platformWordAddr platformByteAddr
  split
  · next h =>
    obtain ⟨hbase, hmod, hlt⟩ := h
    rw [Except.ok.injEq, ← BitVec.toNat_inj, BitVec.toNat_ofNat, Nat.mod_eq_of_lt hlt]
    omega
  · next h =>
    simp only [reduceCtorEq, false_iff]
    omega

theorem platformWordAddr_cases (base p : Nat) :
    (∃ a, platformWordAddr base p = .ok a) ∨ platformWordAddr base p = .error .platformByteAddress := by
  unfold platformWordAddr
  split
  · exact .inl ⟨_, rfl⟩
  · exact .inr rfl

/-- Settles O27: the bytes are the word's own bits in rising order, and a byte address translates exactly where it is the
byte address of a word. -/
theorem platformBytesAreLittleEndian : Obligations.PlatformBytesAreLittleEndian := by
  refine ⟨wordOfBytes_bytesOfWord, fun w k hk => ?_, fun base a => platformWordAddr_eq_ok.2 rfl, fun base p hp => ?_⟩
  · rw [bytesOfWord_getElem w hk, BitVec.extractLsb'_toNat, Nat.shiftRight_eq_div_pow]
  · exact (platformWordAddr_cases base p).resolve_left fun ⟨a, h⟩ => hp a (platformWordAddr_eq_ok.1 h)

end Sys2Proof.Machine

/-! SUPPORT. Proofs of the family 30_encoding: the decoder undoes the encoder, the opcode map under its mask, the causes
of a word as arithmetic on its bits, and what a command write does when its instruction runs. -/

namespace Sys2Proof

/-! ### The decoder and the encoder -/

/-- Every field of an instruction's word reads back (30_encoding R70 to R72). -/
theorem decode_encode (i : Instr) : decode (encode i) = some i := by
  cases i <;>
    simp only [encode, decode, zeroField_commandWord, opField_commandWord, srcField_commandWord, nField_commandWord,
      mField_commandWord, bankOfBit_bitOfBank] <;> rfl

/-- Settles O1: the fields of a built word are the fields it was built from. -/
theorem decodeOfEncode : Obligations.DecodeOfEncode := decode_encode

/-- Settles O2: an accepted word has no reserved bit and its operation number is the instruction's. -/
theorem encodeOfDecode : Obligations.EncodeOfDecode := fun _ _ => encode_of_decode

/-- Settles O4: each printed word is the encoder's word of its command. -/
theorem printedWordsDecode : Obligations.PrintedWordsDecode :=
  ⟨decode_encode (.fdct .ga 8#12 8#12), decode_encode (.quant .gb 8#12 8#12), decode_encode (.idct .ga 8#12 8#12),
    decode_encode (.fdct .ga 10#12 16#12), decode_encode (.idct .gb 2#12 2#12)⟩

/-! ### The fields of a word as numbers -/

section WordFields
variable (w : Word32)

theorem opField_toNat : (opField w).toNat = w.toNat / 2 ^ 28 := by
  have := w.isLt
  simp only [opField, BitVec.extractLsb'_toNat, Nat.shiftRight_eq_div_pow]
  omega

theorem zeroField_toNat : (zeroField w).toNat = w.toNat / 2 ^ 24 % 8 := by
  simp only [zeroField, BitVec.extractLsb'_toNat, Nat.shiftRight_eq_div_pow]

theorem nField_toNat : (nField w).toNat = w.toNat / 2 ^ 12 % 4096 := by
  simp only [nField, BitVec.extractLsb'_toNat, Nat.shiftRight_eq_div_pow]

theorem mField_toNat : (mField w).toNat = w.toNat % 4096 := by
  simp only [mField, BitVec.extractLsb'_toNat, Nat.shiftRight_zero]

end WordFields

/-! ### The opcode map under its mask -/

/-- Under the mask of R72 a word keeps its operation and reserved bits and nothing else, so it matches a row of the map
exactly when `OP` is the row's and `ZERO` is 0. -/
theorem and_opcodeMask_eq_iff {w : Word32} {op : BitVec 4} :
    w &&& 0xF7000000#32 = commandWord op .ga 0#12 0#12 ↔ opField w = op ∧ zeroField w = 0#3 := by
  have hop : opField (w &&& 0xF7000000#32) = opField w :=
    BitVec.extractLsb'_and.trans (BitVec.and_allOnes (x := opField w))
  have hzero : zeroField (w &&& 0xF7000000#32) = zeroField w :=
    BitVec.extractLsb'_and.trans (BitVec.and_allOnes (x := zeroField w))
  have hsrc : srcField (w &&& 0xF7000000#32) = 0#1 := BitVec.extractLsb'_and.trans BitVec.and_zero
  have hn : nField (w &&& 0xF7000000#32) = 0#12 := BitVec.extractLsb'_and.trans BitVec.and_zero
  have hm : mField (w &&& 0xF7000000#32) = 0#12 := BitVec.extractLsb'_and.trans BitVec.and_zero
  constructor
  · intro h
    rw [← hop, ← hzero, h]
    exact ⟨opField_commandWord .., zeroField_commandWord ..⟩
  · rintro ⟨rfl, hz⟩
    have hw := commandWord_fields (hzero.trans hz)
    rw [hop, hsrc, hn, hm] at hw
    exact hw.symm

theorem commandWord_and_opcodeMask (op : BitVec 4) (src : Bank) (n m : BitVec 12) :
    commandWord op src n m &&& 0xF7000000#32 = commandWord op .ga 0#12 0#12 :=
  and_opcodeMask_eq_iff.2 ⟨opField_commandWord .., zeroField_commandWord ..⟩

/-- A word that matches a row of the map is the command word of the row's operation and its own free fields. -/
theorem eq_commandWord_of_and_opcodeMask {w : Word32} {op : BitVec 4}
    (h : w &&& 0xF7000000#32 = commandWord op .ga 0#12 0#12) :
    w = commandWord op (bankOfBit (srcField w)) (nField w) (mField w) := by
  obtain ⟨rfl, hz⟩ := and_opcodeMask_eq_iff.1 h
  exact (commandWord_fields hz).symm

/-- The bank a word names is that of its bit 27 (30_encoding R71). -/
theorem bankOfBit_srcField (w : Word32) : bankOfBit (srcField w) = if w.getLsbD 27 then .gb else .ga := by
  have hbit : srcField w = BitVec.ofBool (w.getLsbD 27) := BitVec.eq_of_getLsbD_eq fun i hi => by
    obtain rfl : i = 0 := by omega
    simp [srcField]
  rw [hbit]
  cases w.getLsbD 27 <;> rfl

/-- Settles O3: a word that matches a row of the map is an encoder's word, and the decoder accepts encoders' words
only. -/
theorem decodeFollowsOpcodeMap : Obligations.DecodeFollowsOpcodeMap := by
  intro w bank n m
  have hbank : bankOfBit (srcField w) = bank := bankOfBit_srcField w
  have hn : nField w = n := BitVec.eq_of_toNat_eq ((nField_toNat w).trans (BitVec.toNat_ofNat _ 12).symm)
  have hm : mField w = m := BitVec.eq_of_toNat_eq ((mField_toNat w).trans (BitVec.toNat_ofNat _ 12).symm)
  have hrow (op : BitVec 4) (h : w &&& 0xF7000000#32 = commandWord op .ga 0#12 0#12) :
      decode w = decode (commandWord op bank n m) := by
    rw [← hbank, ← hn, ← hm, ← eq_commandWord_of_and_opcodeMask h]
  refine ⟨fun h => ?_, fun h => ?_, fun h => ?_, fun hfdct hquant hidct => ?_⟩
  · exact (hrow 1#4 (h.trans (by decide))).trans (decode_encode (.fdct bank n m))
  · exact (hrow 2#4 (h.trans (by decide))).trans (decode_encode (.quant bank n m))
  · exact (hrow 3#4 (h.trans (by decide))).trans (decode_encode (.idct bank n m))
  · cases hd : decode w with
    | none => rfl
    | some i =>
      rw [← encode_of_decode hd] at hfdct hquant hidct
      cases i with
      | fdct src n m => exact absurd ((commandWord_and_opcodeMask 1#4 src n m).trans (by decide)) hfdct
      | quant src n m => exact absurd ((commandWord_and_opcodeMask 2#4 src n m).trans (by decide)) hquant
      | idct src n m => exact absurd ((commandWord_and_opcodeMask 3#4 src n m).trans (by decide)) hidct

/-! ### The causes of a word -/

theorem dimBad_eq_true {maxDim d : Nat} : dimBad maxDim d = true ↔ d = 0 ∨ maxDim < d := by
  simp [dimBad]

/-- A word is legal exactly where none of the three causes of a command word applies. -/
theorem causes_eq_nil_iff {maxDim : Nat} {w : Word32} : causes maxDim w = [] ↔
    Cause.op ∉ causes maxDim w ∧ Cause.rsv ∉ causes maxDim w ∧ Cause.dim ∉ causes maxDim w := by
  rw [List.eq_nil_iff_forall_not_mem]
  refine ⟨fun h => ⟨h _, h _, h _⟩, fun ⟨hop, hrsv, hdim⟩ c => ?_⟩
  cases c with
  | op => exact hop
  | rsv => exact hrsv
  | dim => exact hdim
  | addr => exact not_mem_causes_addr

/-- Settles O5: each cause is a condition on one field, and a field is a slice of the word's bits. -/
theorem causesOfAWord : Obligations.CausesOfAWord := by
  intro maxDim w op z n m
  have hop : Cause.op ∈ causes maxDim w ↔ op = 0 ∨ 4 ≤ op := by
    rw [mem_causes_op, opField_toNat]
    omega
  have hrsv : Cause.rsv ∈ causes maxDim w ↔ z ≠ 0 := by
    rw [mem_causes_rsv, ne_eq, ← BitVec.toNat_inj, zeroField_toNat]
    rfl
  have hdim : Cause.dim ∈ causes maxDim w ↔ n = 0 ∨ m = 0 ∨ maxDim < n ∨ maxDim < m := by
    rw [mem_causes_dim, dimBad_eq_true, dimBad_eq_true, nField_toNat, mField_toNat]
    omega
  refine ⟨hop, hrsv, hdim, not_mem_causes_addr, ?_⟩
  rw [causes_eq_nil_iff, hop, hrsv, hdim]
  omega

end Sys2Proof

namespace Sys2Proof.Machine

/-! ### A command write -/

/-- A word of the opcode map runs its instruction. -/
theorem issue_of_decode {w : Word32} {i : Instr} (h : decode w = some i) (s : State) : issue w s = exec i s := by
  unfold issue
  rw [h]

/-- The step where the host's next move writes CMD. -/
theorem step_write_of_cmd {s : State} {v : Word64} {rest : List Transaction} (hp : s.pending = .hwr cmdAddr v :: rest) :
    step s = issue (commandOf v) { s with pending := rest } :=
  (step_hwr hp).trans (hostWrite_cmd v (place_cmdAddr _))

/-- Settles O6: CMD stands at its address, and a word of the map runs. -/
theorem stepRunsDecodedInstruction : Obligations.StepRunsDecodedInstruction := by
  intro s v rest i hp hd
  exact (step_write_of_cmd hp).trans (issue_of_decode hd _)

/-- Settles O13: a dimension out of range makes the instruction not well formed, which refuses it. -/
theorem illegalDimensionIsRefused : Obligations.IllegalDimensionIsRefused := by
  intro i s hdim
  have hwf : ¬ i.WellFormed s.config := by
    unfold Instr.WellFormed dimInRange
    omega
  exact exec_of_not_wellFormed hwf

/-- The step of a legal command over a written window completes the command and takes the move off the host's list. -/
theorem step_of_wellFormed {s : State} {v : Word64} {rest : List Transaction} {i : Instr}
    (hp : s.pending = .hwr cmdAddr v :: rest) (hd : decode (commandOf v) = some i) (hwf : i.WellFormed s.config)
    (hw : s.WindowWritten (sourceOf i) i.rows.toNat i.cols.toNat) :
    step s = .next { commandResult i s with pending := rest } :=
  (stepRunsDecodedInstruction s v rest i hp hd).trans (exec_of_wellFormed (s := { s with pending := rest }) hwf hw)

/-- Settles O8: a word without causes decodes to a well-formed instruction, whose word it is. -/
theorem acceptedWriteRecordsTheCommand : Obligations.AcceptedWriteRecordsTheCommand := by
  intro s v rest i hp hc hd hw
  have hword : encode i = commandOf v := encode_of_decode hd
  have hwf : i.WellFormed s.config := causes_encode_eq_nil.1 (hword ▸ hc)
  exact ⟨_, step_of_wellFormed hp hd hwf hw, hword, rfl, rfl, rfl⟩

/-! ### PIPE -/

theorem commandOf_zeroExtend (w : Word32) : commandOf (w.zeroExtend 64) = w :=
  (BitVec.extractLsb'_setWidth_of_le (by decide)).trans BitVec.extractLsb'_eq_self

/-- The first step of a run whose host has a legal command over a written window to issue. -/
theorem runFor_succ_of_commandWrite (i : Instr) (s : State) (rest : List Transaction) (hwf : i.WellFormed s.config)
    (hw : s.WindowWritten (sourceOf i) i.rows.toNat i.cols.toNat) (k : Nat) :
    runFor (k + 1) { s with pending := commandWrite (encode i) :: rest }
      = runFor k { commandResult i s with pending := rest } := by
  have hd : decode (commandOf ((encode i).zeroExtend 64)) = some i := by rw [commandOf_zeroExtend, decode_encode]
  exact runFor_succ_of_next
    (step_of_wellFormed (s := { s with pending := commandWrite (encode i) :: rest }) rfl hd hwf hw) k

section CommandCells
variable (i : Instr) (s : State) {r c : Nat}

/-- A cell of the destination window after a completed command. -/
theorem commandResult_cell_window (hr : r < i.rows.toNat) (hc : c < i.cols.toNat) :
    (commandResult i s).cell (otherBank (sourceOf i)) r c =
      some (resultOf s.config i (sourceWindow s.mem (sourceOf i) i.rows.toNat i.cols.toNat) r c) :=
  (commandResult_cell i s _ r c (hc.trans i.cols.isLt)).trans (if_pos ⟨rfl, hr, hc⟩)

/-- A cell outside the window of either bank after a completed command. -/
theorem commandResult_cell_outside (b : Bank) (hc : c < 4096) (hout : ¬ (r < i.rows.toNat ∧ c < i.cols.toNat)) :
    (commandResult i s).cell b r c = s.cell b r c :=
  (commandResult_cell i s b r c hc).trans (if_neg fun h => hout h.2)

theorem commandResult_windowWritten {b : Bank} (hb : otherBank (sourceOf i) = b) :
    (commandResult i s).WindowWritten b i.rows.toNat i.cols.toNat := fun r hr c hc => by
  rw [← hb, commandResult_cell_window i s hr hc]
  rfl

/-- The next command that reads the destination window is handed the result as its grid. -/
theorem sourceWindow_commandResult {b : Bank} (hb : otherBank (sourceOf i) = b) :
    sourceWindow (commandResult i s).mem b i.rows.toNat i.cols.toNat = gridOf i.rows.toNat i.cols.toNat
      (resultOf s.config i (sourceWindow s.mem (sourceOf i) i.rows.toNat i.cols.toNat)) := by
  refine List.map_congr_left fun r hr => List.map_congr_left fun c hc => ?_
  rw [← hb, ← cell_eq_read, commandResult_cell_window i s (List.mem_range.1 hr) (List.mem_range.1 hc)]
  rfl

end CommandCells

theorem otherBank_otherBank (b : Bank) : otherBank (otherBank b) = b := by cases b <;> rfl

section Pipe
variable (bank : Bank) (n m : BitVec 12) (s : State)

/-- The state that the first two commands of PIPE leave (30_encoding R77). -/
def pipeQuantized : State := commandResult (.quant (otherBank bank) n m) (commandResult (.fdct bank n m) s)

/-- The state that the three commands of PIPE leave. -/
def pipeResult : State := commandResult (.idct bank n m) (pipeQuantized bank n m s)

/-- The coefficients that the first two commands of PIPE compute from the named bank's window. -/
def pipeCoefficients : Window :=
  gridOf n.toNat m.toNat (quantResult s.config
    (gridOf n.toNat m.toNat (fdctResult n.toNat m.toNat (sourceWindow s.mem bank n.toNat m.toNat))))

/-- The second command of PIPE writes the window that the third reads. -/
theorem pipeQuantized_windowWritten : (pipeQuantized bank n m s).WindowWritten bank n.toNat m.toNat :=
  commandResult_windowWritten (.quant (otherBank bank) n m) _ (otherBank_otherBank bank)

/-- The host's three moves of PIPE lead to the state of its three commands: each stage's source window is written, the
first by hypothesis and the others by the stage before. -/
theorem runFor_pipe {rest : List Transaction} (hp : s.pending = lineTransactions (.pipe bank n m) ++ rest)
    (hwf : (Instr.fdct bank n m).WellFormed s.config) (hw : s.WindowWritten bank n.toNat m.toNat) :
    runFor 3 s = .next { pipeResult bank n m s with pending := rest } := by
  have hquant : (commandResult (.fdct bank n m) s).WindowWritten (otherBank bank) n.toNat m.toNat :=
    commandResult_windowWritten (.fdct bank n m) s rfl
  have hidct := pipeQuantized_windowWritten bank n m s
  calc runFor 3 s
      = runFor 3 { s with pending := lineTransactions (.pipe bank n m) ++ rest } := by rw [← hp]
    _ = runFor 2 { commandResult (.fdct bank n m) s with
          pending := commandWrite (encode (.quant (otherBank bank) n m)) ::
            commandWrite (encode (.idct bank n m)) :: rest } :=
        runFor_succ_of_commandWrite (.fdct bank n m) s _ hwf hw 2
    _ = runFor 1 { pipeQuantized bank n m s with pending := commandWrite (encode (.idct bank n m)) :: rest } :=
        runFor_succ_of_commandWrite (.quant (otherBank bank) n m) (commandResult (.fdct bank n m) s) _ hwf hquant 1
    _ = runFor 0 { pipeResult bank n m s with pending := rest } :=
        runFor_succ_of_commandWrite (.idct bank n m) (pipeQuantized bank n m s) rest hwf hidct 0

/-- The named bank's window after the first two commands. -/
theorem sourceWindow_pipeQuantized :
    sourceWindow (pipeQuantized bank n m s).mem bank n.toNat m.toNat = pipeCoefficients bank n m s := by
  have hforward := sourceWindow_commandResult (.fdct bank n m) s rfl
  exact (sourceWindow_commandResult (.quant (otherBank bank) n m) _ (otherBank_otherBank bank)).trans
    (congrArg (fun C => gridOf n.toNat m.toNat (quantResult s.config C)) hforward)

variable {r c : Nat}

/-- The last command reads the coefficients and leaves them. -/
theorem pipeResult_cell_bank (hr : r < n.toNat) (hc : c < m.toNat) :
    (pipeResult bank n m s).cell bank r c = some (cellOf (pipeCoefficients bank n m s) r c) := by
  obtain ⟨v, hv⟩ := Option.isSome_iff_exists.1 (pipeQuantized_windowWritten bank n m s r hr c hc)
  rw [← sourceWindow_pipeQuantized, cellOf_sourceWindow hr hc hv]
  exact (commandResult_cell_source (.idct bank n m) _ r c).trans hv

theorem pipeResult_cell_otherBank (hr : r < n.toNat) (hc : c < m.toNat) :
    (pipeResult bank n m s).cell (otherBank bank) r c =
      some (idctResult n.toNat m.toNat (pipeCoefficients bank n m s) r c) := by
  rw [← sourceWindow_pipeQuantized]
  exact commandResult_cell_window (.idct bank n m) _ hr hc

theorem pipeResult_cell_outside (b : Bank) (hc : c < 4096) (hout : ¬ (r < n.toNat ∧ c < m.toNat)) :
    (pipeResult bank n m s).cell b r c = s.cell b r c :=
  calc (pipeResult bank n m s).cell b r c
      = (pipeQuantized bank n m s).cell b r c := commandResult_cell_outside (.idct bank n m) _ b hc hout
    _ = (commandResult (.fdct bank n m) s).cell b r c :=
      commandResult_cell_outside (.quant (otherBank bank) n m) _ b hc hout
    _ = s.cell b r c := commandResult_cell_outside (.fdct bank n m) s b hc hout

end Pipe

/-- Settles O19: each stage reads the window the stage before it wrote, and the last leaves the coefficients alone. -/
theorem pipeComposesTheThreeStages : Obligations.PipeComposesTheThreeStages := by
  intro bank n m s rest hwf hw hp input coefficients quantized
  exact ⟨_, runFor_pipe bank n m s hp hwf hw,
    fun r hr c hc => ⟨pipeResult_cell_bank bank n m s hr hc, pipeResult_cell_otherBank bank n m s hr hc⟩,
    fun b r c hc hout => pipeResult_cell_outside bank n m s b hc hout, rfl, rfl, rfl, rfl, rfl, rfl⟩

end Sys2Proof.Machine

/-! SUPPORT. Proofs of the family 40_fdct: the completion of a command over a window that holds a given grid, what a
NaN, a factor of 1.0 and a sum from +0.0 do in the datapath, and the level-R transform as an algebra of sums. -/

namespace Sys2Proof.Machine

/-! ### A command over a window that holds a grid -/

/-- A window that holds a grid is written. -/
theorem State.WindowHolds.written {s : State} {b : Bank} {n m : Nat} {S : Window} (h : s.WindowHolds b n m S) :
    s.WindowWritten b n m := fun r hr c hc => by
  rw [h r hr c hc]
  rfl

/-- The grid handed to the operation holds, cell by cell, the grid that the window holds. -/
theorem State.WindowHolds.cellOf_sourceWindow {s : State} {b : Bank} {n m : Nat} {S : Window}
    (h : s.WindowHolds b n m S) {r c : Nat} (hr : r < n) (hc : c < m) :
    cellOf (sourceWindow s.mem b n m) r c = cellOf S r c :=
  Machine.cellOf_sourceWindow hr hc (h r hr c hc)

/-- A completed command writes its window, LASTCMD and STATUS, and nothing else (20_memory R60). -/
theorem commandResult_frame (i : Instr) (s : State) : CommandFrame i s (commandResult i s) where
  config := rfl
  err := rfl
  pending := rfl
  answers := rfl
  source := commandResult_cell_source i s
  outside := fun _ _ hc hout => commandResult_cell_outside i s _ hc hout

/-- What a store leaves for a computed value (43_numerics R133). -/
theorem storedAs_storeResult (draw x : F64) : StoredAs x (storeResult draw x) :=
  ⟨storeResult_of_not_nan draw, isNaN_storeResult draw⟩

/-! ### The accumulation reads its terms inside the window only -/

theorem accumulate_congr {n m : Nat} {f g : Nat → Nat → F64} (h : ∀ x < n, ∀ y < m, f x y = g x y) :
    accumulate n m f = accumulate n m g := by
  unfold accumulate
  refine List.foldl_ext _ _ _ fun row x hx => List.foldl_ext _ _ _ fun acc y hy => ?_
  rw [h x (List.mem_range.1 hx) y (List.mem_range.1 hy)]

theorem fdctCell_congr (cos : F64 → F64) {n m : Nat} {S S' : Window}
    (h : ∀ x < n, ∀ y < m, cellOf S x y = cellOf S' x y) (u v : Nat) :
    fdctCell cos n m S u v = fdctCell cos n m S' u v :=
  congrArg (fmul (fmul (alpha u n) (alpha v m))) (accumulate_congr fun x hx y hy => by rw [h x hx y hy])

/-- FDCT stores the datapath's value of any grid that its source window agrees with (40_fdct R92). -/
theorem storedAs_fdctResult {n m : Nat} {S S' : Window} (h : ∀ x < n, ∀ y < m, cellOf S' x y = cellOf S x y)
    (u v : Nat) : StoredAs (fdctCell cosine n m S u v) (fdctResult n m S' u v) := by
  rw [← fdctCell_congr cosine h]
  exact storedAs_storeResult _ _

/-- Settles O10: the command completes, and a cell of its window stores the datapath's value of the grid that the source
window holds. -/
theorem fdctWritesForwardTransform : Obligations.FdctWritesForwardTransform := by
  intro src n m s S _ _ hwf hS
  refine ⟨commandResult (.fdct src n m) s, exec_of_wellFormed hwf hS.written, fun u hu v hv => ?_, rfl, rfl,
    commandResult_frame _ s⟩
  exact ⟨_, commandResult_cell_window (.fdct src n m) s hu hv,
    storedAs_fdctResult (fun x hx y hy => hS.cellOf_sourceWindow hx hy) u v⟩

/-! ### A NaN operand -/

theorem fadd_of_nan {a b : F64} (h : isNaN a = true ∨ isNaN b = true) : fadd a b = qnan :=
  if_pos (Bool.or_eq_true_iff.2 h)

theorem fmul_of_nan {a b : F64} (h : isNaN a = true ∨ isNaN b = true) : fmul a b = qnan :=
  if_pos (Bool.or_eq_true_iff.2 h)

theorem isNaN_fadd {a b : F64} (h : isNaN a = true ∨ isNaN b = true) : isNaN (fadd a b) = true := by
  rw [fadd_of_nan h, isNaN_qnan]

theorem isNaN_fmul {a b : F64} (h : isNaN a = true ∨ isNaN b = true) : isNaN (fmul a b) = true := by
  rw [fmul_of_nan h, isNaN_qnan]

/-- What one element of the list sets in the accumulator, and no element loses, holds after the fold. -/
theorem foldl_of_mem {α β : Type} {p : β → Bool} {f : β → α → β} {l : List α} {x : α} (hx : x ∈ l)
    (hset : ∀ acc, p (f acc x) = true) (hkeep : ∀ acc y, p acc = true → p (f acc y) = true) (acc : β) :
    p (l.foldl f acc) = true := by
  obtain ⟨before, after, rfl⟩ := List.mem_iff_append.1 hx
  rw [List.foldl_append, List.foldl_cons]
  exact List.foldlRecOn (motive := fun acc => p acc = true) after f (hset _) fun acc hacc y _ => hkeep acc y hacc

/-- A NaN among the terms makes the sum a NaN: its own ⊕ does, and every later one keeps it (43_numerics R133). -/
theorem isNaN_accumulate {n m x y : Nat} {term : Nat → Nat → F64} (hx : x < n) (hy : y < m)
    (h : isNaN (term x y) = true) : isNaN (accumulate n m term) = true := by
  have hkeep (row : Nat) (acc : F64) (col : Nat) (hacc : isNaN acc = true) : isNaN (fadd acc (term row col)) = true :=
    isNaN_fadd (.inl hacc)
  refine foldl_of_mem (List.mem_range.2 hx) (fun acc => ?_) (fun acc row hacc => ?_) _
  · exact foldl_of_mem (List.mem_range.2 hy) (fun _ => isNaN_fadd (.inr h)) (hkeep x) acc
  · exact List.foldlRecOn (motive := fun acc => isNaN acc = true) _ _ hacc fun acc hacc col _ => hkeep row acc col hacc

/-- Settles O48: the NaN cell makes its term a NaN in both formulas, the term the sum, and the sum the result. -/
theorem naNCellSpoilsEveryResult : Obligations.NaNCellSpoilsEveryResult := by
  intro n m S x y hx hy hnan u v
  constructor
  · exact isNaN_fmul (.inr (isNaN_accumulate hx hy (isNaN_fmul (.inl (isNaN_fmul (.inl hnan))))))
  · exact isNaN_accumulate hx hy (isNaN_fmul (.inl (isNaN_fmul (.inl (isNaN_fmul (.inr hnan))))))

/-! ### A factor of 1.0 and a sum that begins at +0.0 -/

section Classes
variable {a : F64}

theorem fmag_lt_of_isFinite (h : isFinite a = true) : fmag a < infMag := of_decide_eq_true h

theorem fmag_of_isInf (h : isInf a = true) : fmag a = infMag := beq_iff_eq.1 h

theorem fmag_of_isZero (h : isZero a = true) : fmag a = 0 := beq_iff_eq.1 h

theorem isInf_or_isFinite (h : isNaN a = false) : isInf a = true ∨ isInf a = false ∧ isFinite a = true := by
  rcases class_cases a with ⟨hnan, -⟩ | ⟨-, hinf, -⟩ | ⟨-, hfinite⟩
  · exact absurd hnan (Bool.eq_false_iff.1 h)
  · exact .inl hinf
  · exact .inr hfinite

/-- An infinite value is the Inf of its sign. -/
theorem pack_infMag_of_isInf (h : isInf a = true) : pack (fsign a) infMag = a := by
  rw [← fmag_of_isInf h, pack_fsign_fmag]

/-- A zero is the zero of its sign. -/
theorem pack_zero_of_isZero (h : isZero a = true) : pack (fsign a) 0 = a := by
  rw [← fmag_of_isZero h, pack_fsign_fmag]

theorem isZero_of_isInf (h : isInf a = true) : isZero a = false := by
  rw [isZero, fmag_of_isInf h]
  decide

theorem isNaN_of_isZero (h : isZero a = true) : isNaN a = false := by
  rw [← pack_zero_of_isZero h, isNaN_pack _ (Nat.zero_le _)]

end Classes

/-- A finite magnitude, as a fraction over any denominator, is rounded to itself: the spacing divides it. Unlike
`roundMag_exact` this asks nothing of the rounded value. -/
theorem roundMag_magUnits_mul {g den : Nat} (hg : g < infMag) (hden : 0 < den) :
    roundMag (magUnits g * den) den = g := by
  obtain ⟨hlt, hge⟩ := spacing_spec (magUnits g * den) hden
  rw [roundMag_eq]
  generalize spacing (magUnits g * den) den = k at hlt hge ⊢
  have hdvd : 2 ^ k ∣ magUnits g := by
    rcases hge with rfl | hge
    · exact one_dvd _
    · refine dvd_magUnits (Nat.le_of_mul_le_mul_right ?_ hden)
      calc 2 ^ 52 * 2 ^ k * den = 2 ^ 52 * (den * 2 ^ k) := by ring
        _ ≤ magUnits g * den := hge
  obtain ⟨q, hq⟩ := hdvd
  have hd : 0 < den * 2 ^ k := Nat.mul_pos hden (Nat.two_pow_pos k)
  have hnum : magUnits g * den = q * (den * 2 ^ k) := by rw [hq]; ring
  rw [hnum] at hlt hge ⊢
  have hnear : nearestQuot (q * (den * 2 ^ k)) (den * 2 ^ k) = q := by
    unfold nearestQuot
    rw [Nat.mul_mod_left, Nat.mul_div_cancel _ hd, if_pos (by omega)]
  have hscaled : magUnits (k * 2 ^ 52 + q) = magUnits g := by
    rw [magUnits_of_scaled (Nat.le_of_mul_le_mul_right hlt.le hd)
      (hge.imp_right fun h => Nat.le_of_mul_le_mul_right h hd), hq, mul_comm]
  rw [hnear, magUnits_strictMono.injective hscaled, Nat.min_eq_left hg.le]

theorem fmul_comm (a b : F64) : fmul a b = fmul b a := by
  unfold fmul
  rw [Bool.or_comm (isNaN a), Bool.or_comm (isInf a), Bool.or_comm (isZero a), bne_comm (a := fsign a),
    Nat.mul_comm (units a)]

theorem units_fone : units fone = unitsPerOne := by decide +kernel

/-- Rounding a finite value over any denominator gives its own magnitude. -/
theorem roundMag_units_mul {a : F64} (h : isFinite a = true) {den : Nat} (hden : 0 < den) :
    roundMag (units a * den) den = fmag a :=
  roundMag_magUnits_mul (fmag_lt_of_isFinite h) hden

/-- A factor of 1.0 changes nothing but the bits of a NaN. -/
theorem fmul_fone {a : F64} (h : isNaN a = false) : fmul a fone = a := by
  have hone : isNaN fone = false ∧ isInf fone = false ∧ isZero fone = false ∧ fsign fone = false := by decide
  obtain ⟨hnan, hinf, hzero, hsign⟩ := hone
  unfold fmul
  rw [h, hnan, hinf, hzero, hsign, units_fone, Bool.bne_false, Bool.or_false, Bool.or_false]
  rcases isInf_or_isFinite h with ha | ⟨ha, hfin⟩
  · rw [ha, isZero_of_isInf ha]
    exact pack_infMag_of_isInf ha
  · rw [ha, roundMag_units_mul hfin unitsPerOne_pos]
    exact pack_fsign_fmag a

theorem fone_fmul {a : F64} (h : isNaN a = false) : fmul fone a = a := by rw [fmul_comm, fmul_fone h]

theorem units_pos {a : F64} (h : isZero a = false) : 0 < units a :=
  magUnits_strictMono (Nat.pos_of_ne_zero (beq_eq_false_iff_ne.1 h))

/-- The exact sum that is a value already, not zero, is rounded to that value. -/
theorem packSum_signedUnits (s : Bool) {a : F64} (hfin : isFinite a = true) (hzero : isZero a = false) :
    packSum s (signedUnits a) = a := by
  have hpos := units_pos hzero
  have hround : roundMag (units a) 1 = fmag a := by rw [← roundMag_units_mul hfin Nat.one_pos, Nat.mul_one]
  have hsign : decide (signedUnits a < 0) = fsign a := by
    unfold signedUnits
    cases fsign a with
    | false => simp
    | true => simpa using hpos
  have habs : (signedUnits a).natAbs = units a := by
    unfold signedUnits
    split <;> omega
  unfold packSum
  rw [if_neg (Int.natAbs_ne_zero.1 (habs ▸ hpos.ne')), hsign, habs, hround, pack_fsign_fmag]

/-- A sum that begins at +0.0 is its one term, a zero of either sign aside. -/
theorem fzero_fadd {a : F64} (hnan : isNaN a = false) (hzero : isZero a = false) : fadd fzero a = a := by
  have h0 : isNaN fzero = false ∧ isInf fzero = false ∧ fsign fzero = false ∧ signedUnits fzero = 0 := by decide
  obtain ⟨h0nan, h0inf, h0sign, h0units⟩ := h0
  unfold fadd
  rw [hnan, h0nan, h0inf, h0sign, h0units, zero_add, Bool.false_and, Bool.or_false]
  simp only [Bool.false_eq_true, if_false]
  rcases isInf_or_isFinite hnan with ha | ⟨ha, hfin⟩
  · rw [if_pos ha]
  · rw [ha, if_neg Bool.false_ne_true, packSum_signedUnits false hfin hzero]

/-- A sum of +0.0 and a zero of either sign is +0.0 (43_numerics R136). -/
theorem fzero_fadd_of_isZero {a : F64} (h : isZero a = true) : fadd fzero a = fzero := by
  rw [← pack_zero_of_isZero h]
  cases fsign a <;> decide

/-! ### The transforms of one cell -/

theorem alpha_zero_one : alpha 0 1 = fone := by decide +kernel

theorem arg_zero_zero_one : arg 0 0 1 = fzero := by decide +kernel

theorem cosine_fzero : cosine fzero = fone := if_pos rfl

theorem ck_zero_zero_one : ck cosine 0 0 1 = fone := by rw [ck, arg_zero_zero_one, cosine_fzero]

theorem accumulate_one_one (term : Nat → Nat → F64) : accumulate 1 1 term = fadd fzero (term 0 0) := rfl

section OneCell
variable {S : Window} (h : isNaN (cellOf S 0 0) = false)
include h

/-- Every factor of the forward transform of one cell is 1.0 (40_fdct R90). -/
theorem fdctCell_one_one : fdctCell cosine 1 1 S 0 0 = fmul fone (fadd fzero (cellOf S 0 0)) := by
  unfold fdctCell
  rw [accumulate_one_one, alpha_zero_one, ck_zero_zero_one, fmul_fone h, fmul_fone h, fmul_fone (by decide)]

/-- Every factor of the inverse transform of one cell is 1.0 (42_idct R115). -/
theorem idctCell_one_one : idctCell cosine 1 1 S 0 0 = fadd fzero (cellOf S 0 0) := by
  unfold idctCell
  rw [accumulate_one_one, alpha_zero_one, ck_zero_zero_one, fmul_fone (a := fone) (by decide), fone_fmul h,
    fmul_fone h, fmul_fone h]

end OneCell

/-- Settles O49: with factors of 1.0 only, what is left is the sum that begins at +0.0. -/
theorem oneCellTransformIsTheCell : Obligations.OneCellTransformIsTheCell := by
  intro S a
  refine ⟨fun hzero => ?_, fun hzero hnan => ?_, fun hnan => ?_⟩
  · have hnan := isNaN_of_isZero hzero
    rw [fdctCell_one_one hnan, idctCell_one_one hnan, fzero_fadd_of_isZero hzero]
    exact ⟨fone_fmul (by decide), rfl⟩
  · rw [fdctCell_one_one hnan, idctCell_one_one hnan, fzero_fadd hnan hzero]
    exact ⟨fone_fmul hnan, rfl⟩
  · exact naNCellSpoilsEveryResult 1 1 S 0 0 Nat.one_pos Nat.one_pos hnan 0 0

/-! ### Level R -/

section LevelR
open Finset Real

theorem cosR_zero (i d : ℕ) : cosR 0 i d = 1 := by simp [cosR]

/-- The normalisation of the origin coefficient. -/
theorem alphaR_zero_mul_alphaR_zero (n m : ℕ) : alphaR 0 n * alphaR 0 m = (√((n : ℝ) * m))⁻¹ := by
  rw [alphaR, alphaR, if_pos rfl, if_pos rfl, one_div, one_div, sqrt_inv, sqrt_inv, sqrt_mul n.cast_nonneg, mul_inv]

theorem fdctR_linear (n m : ℕ) (a b : ℝ) (S S' : ℕ → ℕ → ℝ) (u v : ℕ) :
    fdctR n m (fun x y => a * S x y + b * S' x y) u v = a * fdctR n m S u v + b * fdctR n m S' u v := by
  simp only [fdctR, add_mul, sum_add_distrib, mul_assoc, ← mul_sum]
  ring

theorem fdctR_zero_zero (n m : ℕ) (S : ℕ → ℕ → ℝ) :
    fdctR n m S 0 0 = (∑ x ∈ range n, ∑ y ∈ range m, S x y) / √((n : ℝ) * m) := by
  simp only [fdctR, cosR_zero, mul_one]
  rw [alphaR_zero_mul_alphaR_zero, mul_comm, div_eq_mul_inv]

/-- Settles O54: the transform is a sum of multiples of the samples, and the cosines of the origin are 1. -/
theorem forwardIsLinearWithSumAtOrigin : Obligations.ForwardIsLinearWithSumAtOrigin :=
  ⟨fdctR_linear, fdctR_zero_zero⟩

/-- The cosines of a positive frequency below 2D sum to 0 over the D samples (93 G9). With θ = πu/D the samples are
cos(xθ + θ/2), so sin(θ/2) times their sum is sin(πu/2)·cos(πu/2) = sin(πu)/2 = 0, and sin(θ/2) is positive. -/
theorem sum_cosR_eq_zero {u d : ℕ} (hu : 0 < u) (hud : u < 2 * d) : ∑ x ∈ range d, cosR u x d = 0 := by
  have hd : (0 : ℝ) < d := by exact_mod_cast (by omega : 0 < d)
  have hratio : (u : ℝ) / (2 * d) < 1 := (div_lt_one (by positivity)).2 (by exact_mod_cast hud)
  have hsin : 0 < sin (π * u / d / 2) := by
    rw [show π * u / d / 2 = π * (u / (2 * d)) by ring]
    exact sin_pos_of_pos_of_lt_pi (by positivity) (mul_lt_of_lt_one_right pi_pos hratio)
  have hterm (x : ℕ) : cosR u x d = cos (π * u / d * x + π * u / d / 2) := by
    rw [cosR]
    congr 1
    field
  refine (mul_eq_zero.1 ?_).resolve_left hsin.ne'
  calc sin (π * u / d / 2) * ∑ x ∈ range d, cosR u x d
      = sin (d * (π * u / d) / 2) * cos ((d - 1) * (π * u / d) / 2 + π * u / d / 2) := by
        simp only [hterm, sin_mul_sum_cos]
    _ = sin (u * π / 2) * cos (u * π / 2) := by congr 2 <;> field
    _ = sin (2 * (u * π / 2)) / 2 := by rw [sin_two_mul]; ring
    _ = 0 := by rw [mul_div_cancel₀ _ two_ne_zero, sin_nat_mul_pi, zero_div]

/-- A constant grid separates into a row sum and a column sum of cosines. -/
theorem fdctR_const (n m : ℕ) (k : ℝ) (u v : ℕ) : fdctR n m (fun _ _ => k) u v =
    alphaR u n * alphaR v m * (k * ((∑ x ∈ range n, cosR u x n) * ∑ y ∈ range m, cosR v y m)) := by
  rw [fdctR, sum_mul_sum, mul_sum]
  simp only [mul_sum, mul_assoc]

/-- Settles O55: off the origin one of the two sums of cosines is 0; the origin is the sum of n·m samples k over
√(n·m). -/
theorem constantGridHasOneCoefficient : Obligations.ConstantGridHasOneCoefficient := by
  intro n m k u v hu hv
  split
  · next h =>
    obtain ⟨rfl, rfl⟩ := h
    calc fdctR n m (fun _ _ => k) 0 0
        = (∑ x ∈ range n, ∑ y ∈ range m, k) / √((n : ℝ) * m) := fdctR_zero_zero n m _
      _ = k * ((n : ℝ) * m) / √((n : ℝ) * m) := by simp only [sum_const, card_range, nsmul_eq_mul]; ring
      _ = k * √((n : ℝ) * m) := by rw [mul_div_assoc, div_sqrt]
  · next h =>
    rw [fdctR_const]
    rcases Nat.eq_zero_or_pos u with rfl | hu0
    · rw [sum_cosR_eq_zero (u := v) (by omega) (by omega)]
      ring
    · rw [sum_cosR_eq_zero hu0 (by omega)]
      ring

end LevelR

end Sys2Proof.Machine

/-! SUPPORT. Proofs of the family 41_quant: which numbers of units a finite word can hold, RND as the rounding of a
fraction of units and of the real number it stands for, and the division by a table entry. -/

namespace Sys2Proof.Machine

/-! ### QUANT over a window that holds a grid -/

/-- The table is tiled: an entry depends on its indices modulo 8 only (41_quant R104). -/
theorem entry_mod (cfg : Config) (i j : Nat) : cfg.entry (i % 8) (j % 8) = cfg.entry i j := by
  simp only [Config.entry, Nat.mod_mod]

/-- Settles O11: the command completes, and a cell of its window stores the rounded quotient of the cell that the source
window holds. -/
theorem quantWritesRoundedQuotients : Obligations.QuantWritesRoundedQuotients := by
  intro src n m s C hwf hC
  refine ⟨commandResult (.quant src n m) s, exec_of_wellFormed hwf hC.written, fun i hi j hj => ?_, rfl, rfl,
    commandResult_frame _ s⟩
  refine ⟨_, commandResult_cell_window (.quant src n m) s hi hj, ?_⟩
  rw [entry_mod, ← hC.cellOf_sourceWindow hi hj]
  exact storedAs_storeResult _ _

/-! ### The magnitudes of the finite values -/

/-- A number of units that some finite value has for its magnitude. -/
def IsMagnitude (x : Nat) : Prop := ∃ g, g < infMag ∧ magUnits g = x

theorem isMagnitude_units {a : F64} (h : isFinite a = true) : IsMagnitude (units a) :=
  ⟨fmag a, fmag_lt_of_isFinite h, rfl⟩

/-- A magnitude, as a fraction over any denominator, is rounded to itself. -/
theorem IsMagnitude.roundMag_mul {x den : Nat} (h : IsMagnitude x) (hden : 0 < den) :
    roundMag (x * den) den < infMag ∧ magUnits (roundMag (x * den) den) = x := by
  obtain ⟨g, hg, rfl⟩ := h
  rw [roundMag_magUnits_mul hg hden]
  exact ⟨hg, rfl⟩

/-- Twice a magnitude is a magnitude of the unbounded exponent range: a subnormal's fraction doubles, a normal value's
exponent rises by one. -/
theorem exists_magUnits_eq_two_mul (g : Nat) : ∃ g', magUnits g' = 2 * magUnits g := by
  by_cases hg : g < 2 ^ 52
  · refine ⟨0 * 2 ^ 52 + 2 * g, ?_⟩
    rw [magUnits_of_scaled (by omega) (.inl rfl), magUnits, if_pos hg, pow_zero, mul_one]
  · refine ⟨g + 2 ^ 52, ?_⟩
    have hexp : (g + 2 ^ 52) / 2 ^ 52 - 1 = g / 2 ^ 52 - 1 + 1 := by omega
    rw [magUnits, magUnits, if_neg (by omega), if_neg hg, hexp, Nat.add_mod_right, pow_succ]
    ring

theorem exists_magUnits_eq {n : Nat} (hn : n ≤ 2 ^ 53) (k : Nat) : ∃ g, magUnits g = n * 2 ^ k := by
  induction k with
  | zero => exact ⟨0 * 2 ^ 52 + n, magUnits_of_scaled hn (.inl rfl)⟩
  | succ k ih =>
    obtain ⟨g, hg⟩ := ih
    obtain ⟨g', hg'⟩ := exists_magUnits_eq_two_mul g
    exact ⟨g', by rw [hg', hg, pow_succ]; ring⟩

theorem magUnits_infMag : magUnits infMag = 2 ^ 52 * 2 ^ 2046 := by
  have hexp : infMag = 2046 * 2 ^ 52 + 2 ^ 52 := by decide
  rw [hexp, magUnits_of_scaled (by norm_num) (.inr le_rfl)]

theorem mul_two_pow_lt {n k e : Nat} (hn : n ≤ 2 ^ 53) (hk : k + 1 < e) : n * 2 ^ k < 2 ^ 52 * 2 ^ e :=
  calc n * 2 ^ k ≤ 2 ^ 53 * 2 ^ k := Nat.mul_le_mul_right _ hn
    _ = 2 ^ 52 * 2 ^ (k + 1) := by ring
    _ < 2 ^ 52 * 2 ^ e := Nat.mul_lt_mul_of_pos_left (Nat.pow_lt_pow_right one_lt_two hk) (by norm_num)

theorem isMagnitude_mul_two_pow {n k : Nat} (hn : n ≤ 2 ^ 53) (hk : k < 2045) : IsMagnitude (n * 2 ^ k) := by
  obtain ⟨g, hg⟩ := exists_magUnits_eq hn k
  refine ⟨g, magUnits_strictMono.lt_iff_lt.1 ?_, hg⟩
  rw [hg, magUnits_infMag]
  exact mul_two_pow_lt hn (by omega)

/-- Every integer up to 2^53 is a finite value. -/
theorem isMagnitude_mul_unitsPerOne {n : Nat} (hn : n ≤ 2 ^ 53) : IsMagnitude (n * unitsPerOne) :=
  isMagnitude_mul_two_pow hn (by norm_num)

/-- From 2^52 on every value is an integer. -/
theorem unitsPerOne_dvd_units {q : F64} (h : 2 ^ 52 * unitsPerOne ≤ units q) : unitsPerOne ∣ units q := by
  unfold unitsPerOne at *
  exact dvd_magUnits h

/-- The spacing at a fraction divides every magnitude that is no less than the fraction. -/
theorem two_pow_spacing_dvd_magUnits {num den g : Nat} (hden : 0 < den) (h : num ≤ magUnits g * den) :
    2 ^ spacing num den ∣ magUnits g := by
  rcases (spacing_spec num hden).2 with hzero | hge
  · rw [hzero]
    exact one_dvd _
  · refine dvd_magUnits (Nat.le_of_mul_le_mul_right ?_ hden)
    calc 2 ^ 52 * 2 ^ spacing num den * den = 2 ^ 52 * (den * 2 ^ spacing num den) := by ring
      _ ≤ magUnits g * den := hge.trans h

theorem nearestQuot_le_of_le {num d j : Nat} (hd : 0 < d) (h : num ≤ j * d) : nearestQuot num d ≤ j := by
  rcases h.lt_or_eq with hlt | rfl
  · have hdiv := (Nat.div_lt_iff_lt_mul hd).2 hlt
    unfold nearestQuot
    split <;> [omega; split <;> omega]
  · rw [nearestQuot, Nat.mul_mod_left, Nat.mul_div_cancel _ hd, if_pos (by omega)]

/-- A fraction that is no greater than a magnitude is rounded to no greater one: both are whole numbers of the spacing. -/
theorem roundMag_le_of_le {num den g : Nat} (hden : 0 < den) (h : num ≤ magUnits g * den) : roundMag num den ≤ g := by
  obtain ⟨j, hj⟩ := two_pow_spacing_dvd_magUnits hden h
  obtain ⟨hlt, hge⟩ := spacing_spec num hden
  rw [roundMag_eq]
  generalize spacing num den = k at hlt hge hj ⊢
  have hd : 0 < den * 2 ^ k := Nat.mul_pos hden (Nat.two_pow_pos k)
  have hnear : nearestQuot num (den * 2 ^ k) ≤ j := nearestQuot_le_of_le hd (h.trans_eq (by rw [hj]; ring))
  obtain ⟨hn53, hn52⟩ := nearestQuot_bounds num hd hlt
  refine (Nat.min_le_left _ _).trans (magUnits_strictMono.le_iff_le.1 ?_)
  rw [magUnits_of_scaled hn53 (hge.imp_right hn52), hj, mul_comm]
  exact Nat.mul_le_mul_left _ hnear

/-! ### Values and signs -/

/-- A value is its sign times its magnitude (43_numerics R125). -/
theorem toRat_eq (w : F64) : toRat w = (if fsign w then -1 else 1) * ((units w : ℚ) / unitsPerOne) := by
  rw [toRat, signedUnits]
  split
  · push_cast
    ring
  · push_cast
    ring

theorem abs_sign (s : Bool) : |(if s then -1 else 1 : ℚ)| = 1 := by cases s <;> simp

theorem abs_toRat (w : F64) : |toRat w| = (units w : ℚ) / unitsPerOne := by
  rw [toRat_eq, abs_mul, abs_sign, one_mul, abs_of_nonneg (div_nonneg (Nat.cast_nonneg _) (Nat.cast_nonneg _))]

theorem units_pack (s : Bool) {g : Nat} (hg : g < infMag) : units (pack s g) = magUnits g := by
  rw [units, fmag_pack s (hg.trans infMag_lt)]

theorem isNaN_of_isFinite {a : F64} (h : isFinite a = true) : isNaN a = false := by
  rw [← pack_fsign_fmag a, isNaN_pack _ (fmag_lt_of_isFinite h).le]

theorem isInf_of_isFinite {a : F64} (h : isFinite a = true) : isInf a = false :=
  beq_eq_false_iff_ne.2 (fmag_lt_of_isFinite h).ne

/-! ### The rounding of a fraction to an integer -/

section RoundHalf
variable (mode : RoundMode) {num den : Nat}

theorem roundHalf_of_lt (h : 2 * (num % den) < den) : roundHalf mode num den = num / den := if_pos h

theorem roundHalf_of_gt (h : den < 2 * (num % den)) : roundHalf mode num den = num / den + 1 :=
  (if_neg h.not_gt).trans (if_pos h)

theorem roundHalf_halfAway_of_eq (h : 2 * (num % den) = den) : roundHalf .halfAway num den = num / den + 1 :=
  (if_neg h.not_lt).trans (if_neg h.not_gt)

theorem roundHalf_halfEven_of_eq (h : 2 * (num % den) = den) :
    roundHalf .halfEven num den = num / den + num / den % 2 :=
  (if_neg h.not_lt).trans (if_neg h.not_gt)

theorem roundHalf_le : roundHalf mode num den ≤ num / den + 1 := by
  rcases lt_trichotomy (2 * (num % den)) den with h | h | h
  · exact (roundHalf_of_lt mode h).trans_le (Nat.le_succ _)
  · cases mode with
    | halfAway => exact (roundHalf_halfAway_of_eq h).le
    | halfEven =>
      rw [roundHalf_halfEven_of_eq h]
      exact Nat.add_le_add_left (Nat.le_of_lt_succ (Nat.mod_lt _ two_pos)) _
  · exact (roundHalf_of_gt mode h).le

theorem roundHalf_mul_of_dvd (hden : 0 < den) (h : den ∣ num) : roundHalf mode num den * den = num := by
  rw [roundHalf_of_lt mode (by rwa [Nat.mod_eq_zero_of_dvd h]), Nat.div_mul_cancel h]

/-- The even one of two neighbouring integers. -/
theorem natCast_add_mod_two (n : Nat) : ((n + n % 2 : Nat) : ℤ) = if (n : ℤ) % 2 = 0 then (n : ℤ) else n + 1 := by
  split <;> omega

end RoundHalf

section Fraction
variable {K : Type} [Field K] [LinearOrder K] [IsStrictOrderedRing K] [FloorRing K] (num : Nat) {den : Nat}

/-- The integer part of a fraction. -/
theorem floor_natCast_div (den : Nat) : ⌊(num : K) / den⌋ = ((num / den : Nat) : ℤ) := by
  rw [← Nat.floor_div_eq_div (K := K), Int.natCast_floor_eq_floor (by positivity)]

/-- What lies above the integer part of a fraction. -/
theorem natCast_div_sub_div (hden : 0 < den) :
    (num : K) / den - ((num / den : Nat) : K) = ((num % den : Nat) : K) / den := by
  have hden' : (den : K) ≠ 0 := Nat.cast_ne_zero.2 hden.ne'
  have hnum : (den : K) * ((num / den : Nat) : K) + ((num % den : Nat) : K) = num := by
    exact_mod_cast Nat.div_add_mod num den
  field_simp
  linear_combination -hnum

theorem natCast_div_lt_half (hden : 0 < den) : (num : K) / den < 1 / 2 ↔ 2 * num < den := by
  rw [div_lt_div_iff₀ (Nat.cast_pos.2 hden) two_pos, one_mul, mul_comm]
  exact_mod_cast Iff.rfl

theorem half_lt_natCast_div (hden : 0 < den) : 1 / 2 < (num : K) / den ↔ den < 2 * num := by
  rw [div_lt_div_iff₀ two_pos (Nat.cast_pos.2 hden), one_mul, mul_comm]
  exact_mod_cast Iff.rfl

theorem natCast_div_eq_half (hden : 0 < den) : (num : K) / den = 1 / 2 ↔ 2 * num = den := by
  rw [div_eq_div_iff (Nat.cast_pos.2 hden).ne' two_ne_zero, one_mul, mul_comm]
  exact_mod_cast Iff.rfl

end Fraction

/-! ### RND on the values it keeps -/

theorem isNaN_rnd (mode : RoundMode) {q : F64} (h : isNaN q = true) : isNaN (rnd mode q) = true := by
  rw [rnd, if_pos h, isNaN_qnan]

theorem rnd_of_isInf_or_isZero (mode : RoundMode) {q : F64} (h : isInf q = true ∨ isZero q = true) :
    rnd mode q = q := by
  have hnan : isNaN q = false := by
    rcases h with hinf | hzero
    · rw [← pack_infMag_of_isInf hinf, isNaN_pack _ le_rfl]
    · exact isNaN_of_isZero hzero
  rw [rnd, hnan, if_neg Bool.false_ne_true, if_pos (Bool.or_eq_true_iff.2 h)]

/-! ### RND on the finite values -/

/-- The integer that RND answers for a finite value, in units, is the magnitude of a finite value: below 2^52 it is an
integer of at most 2^52, and from there on the value is an integer already. -/
theorem isMagnitude_roundHalf (mode : RoundMode) {q : F64} (h : isFinite q = true) :
    IsMagnitude (roundHalf mode (units q) unitsPerOne * unitsPerOne) := by
  by_cases hlt : units q < 2 ^ 52 * unitsPerOne
  · have hdiv := (Nat.div_lt_iff_lt_mul unitsPerOne_pos).2 hlt
    have hle := roundHalf_le mode (num := units q) (den := unitsPerOne)
    exact isMagnitude_mul_unitsPerOne (by omega)
  · rw [roundHalf_mul_of_dvd mode unitsPerOne_pos (unitsPerOne_dvd_units (not_lt.1 hlt))]
    exact isMagnitude_units h

/-- On finite values RND is one formula: a zero keeps its sign by it too. -/
theorem rnd_of_isFinite (mode : RoundMode) {q : F64} (h : isFinite q = true) : rnd mode q =
    pack (fsign q) (roundMag (roundHalf mode (units q) unitsPerOne * unitsPerOne) 1) := by
  by_cases hzero : isZero q = true
  · have hunits : units q = 0 := by rw [units, fmag_of_isZero hzero]; rfl
    have hround : roundMag (0 * 1) 1 = 0 := roundMag_magUnits_mul (g := 0) (by decide) one_pos
    rw [rnd_of_isInf_or_isZero mode (.inr hzero), hunits, roundHalf_mul_of_dvd mode unitsPerOne_pos (dvd_zero _),
      ← zero_mul 1, hround, pack_zero_of_isZero hzero]
  · rw [rnd, isNaN_of_isFinite h, isInf_of_isFinite h, Bool.false_or, if_neg Bool.false_ne_true, if_neg hzero]

section Finite
variable (mode : RoundMode) {q : F64} (h : isFinite q = true)
include h

/-- RND keeps the sign, stays finite, and answers an integer number of ones. -/
theorem rnd_spec : isFinite (rnd mode q) = true ∧ fsign (rnd mode q) = fsign q ∧
    units (rnd mode q) = roundHalf mode (units q) unitsPerOne * unitsPerOne := by
  obtain ⟨hlt, hval⟩ := (isMagnitude_roundHalf mode h).roundMag_mul one_pos
  rw [mul_one] at hlt hval
  rw [rnd_of_isFinite mode h, isFinite_pack _ hlt, fsign_pack _ (hlt.trans infMag_lt), units_pack _ hlt]
  exact ⟨rfl, rfl, hval⟩

theorem toRat_rnd : toRat (rnd mode q) = (if fsign q then -1 else 1) * (roundHalf mode (units q) unitsPerOne : ℚ) := by
  obtain ⟨-, hsign, hunits⟩ := rnd_spec mode h
  rw [toRat_eq, hsign, hunits, Nat.cast_mul, mul_div_cancel_right₀ _ (Nat.cast_ne_zero.2 unitsPerOne_pos.ne')]

theorem abs_toRat_rnd : |toRat (rnd mode q)| = roundHalf mode (units q) unitsPerOne := by
  rw [toRat_rnd mode h, abs_mul, abs_sign, one_mul, Nat.abs_cast]

/-- RND leaves an integer alone. -/
theorem rnd_of_dvd (hdvd : unitsPerOne ∣ units q) : rnd mode q = q := by
  have hround : roundMag (units q) 1 = fmag q := by rw [← roundMag_units_mul h one_pos, mul_one]
  rw [rnd_of_isFinite mode h, roundHalf_mul_of_dvd mode unitsPerOne_pos hdvd, hround, pack_fsign_fmag]

end Finite

/-- Settles O50: the magnitude of a finite value is a fraction of units, which RND rounds to an integer. -/
theorem roundingFunction : Obligations.RoundingFunction := by
  intro mode q
  refine ⟨isNaN_rnd mode, rnd_of_isInf_or_isZero mode, fun hfin _ => ?_⟩
  obtain ⟨hfin', hsign, -⟩ := rnd_spec mode hfin
  have hU := unitsPerOne_pos
  intro n f
  have hn : n = (units q / unitsPerOne : Nat) := (congrArg Int.floor (abs_toRat q)).trans (floor_natCast_div _ _)
  have hf : f = ((units q % unitsPerOne : Nat) : ℚ) / unitsPerOne := by
    rw [← natCast_div_sub_div _ hU, ← abs_toRat, ← Int.cast_natCast, ← hn]
  clear_value f n
  subst hn hf
  rw [abs_toRat_rnd mode hfin, natCast_div_lt_half _ hU, half_lt_natCast_div _ hU, natCast_div_eq_half _ hU]
  refine ⟨hfin', hsign, fun hlt => ?_, fun hgt => ?_, fun htie hmode => ?_, fun htie hmode => ?_, fun hlarge => ?_⟩
  · rw [roundHalf_of_lt mode hlt, Int.cast_natCast]
  · rw [roundHalf_of_gt mode hgt, Nat.cast_succ, Int.cast_natCast]
  · rw [hmode, roundHalf_halfAway_of_eq htie, Nat.cast_succ, Int.cast_natCast]
  · rw [hmode, roundHalf_halfEven_of_eq htie, ← Int.cast_natCast, natCast_add_mod_two, Int.cast_ite, Int.cast_add,
      Int.cast_one]
  · rw [abs_toRat, le_div_iff₀ (Nat.cast_pos.2 hU)] at hlarge
    exact rnd_of_dvd mode hfin (unitsPerOne_dvd_units (by exact_mod_cast hlarge))

/-! ### RND and the rounding of real numbers -/

theorem roundR_natCast_div (mode : RoundMode) (num : Nat) {den : Nat} (hden : 0 < den) :
    roundR mode ((num : ℝ) / den) = roundHalf mode num den := by
  have hnonneg : 0 ≤ (num : ℝ) / den := by positivity
  unfold roundR
  rw [if_neg hnonneg.not_gt, abs_of_nonneg hnonneg]
  simp only [floor_natCast_div, Int.cast_natCast, natCast_div_sub_div _ hden, natCast_div_lt_half _ hden,
    half_lt_natCast_div _ hden]
  rcases lt_trichotomy (2 * (num % den)) den with h | h | h
  · rw [if_pos h, roundHalf_of_lt mode h]
  · rw [if_neg h.not_lt, if_neg h.not_gt]
    cases mode with
    | halfAway => rw [roundHalf_halfAway_of_eq h, Nat.cast_succ]
    | halfEven => rw [roundHalf_halfEven_of_eq h, natCast_add_mod_two]
  · rw [if_neg h.not_gt, if_pos h, roundHalf_of_gt mode h, Nat.cast_succ]

theorem roundR_neg (mode : RoundMode) (x : ℝ) : roundR mode (-x) = -roundR mode x := by
  unfold roundR
  rcases lt_trichotomy x 0 with h | rfl | h
  · rw [if_neg (neg_pos.2 h).not_gt, if_pos h, abs_neg, neg_neg]
  · simp
  · rw [if_pos (neg_neg_iff_pos.2 h), if_neg h.not_gt, abs_neg]

/-- On finite values RND is the rounding of the real number (41_quant R101, R103). -/
theorem toReal_rnd (mode : RoundMode) {q : F64} (h : isFinite q = true) :
    toReal (rnd mode q) = roundR mode (toReal q) := by
  rw [toReal, toReal, toRat_rnd mode h, toRat_eq q]
  have hround := roundR_natCast_div mode (units q) unitsPerOne_pos
  split
  · push_cast
    rw [neg_one_mul, neg_one_mul, roundR_neg, hround, Int.cast_neg, Int.cast_natCast]
  · push_cast
    rw [one_mul, one_mul, hround, Int.cast_natCast]

/-! ### The division by a table entry -/

/-- The conversion of an integer up to 2^53 rounds nothing (43_numerics R127). -/
theorem cvt_spec {n : Nat} (hn : n ≤ 2 ^ 53) :
    isFinite (cvt n) = true ∧ fsign (cvt n) = false ∧ units (cvt n) = n * unitsPerOne := by
  obtain ⟨hlt, hval⟩ := (isMagnitude_mul_unitsPerOne hn).roundMag_mul one_pos
  rw [mul_one] at hlt hval
  exact ⟨isFinite_pack _ hlt, fsign_pack _ (hlt.trans infMag_lt), (units_pack _ hlt).trans hval⟩

section Division
variable {c : F64} {n : Nat}

theorem fdiv_cvt (hc : isFinite c = true) (hpos : 1 ≤ n) (hn : n ≤ 2 ^ 53) :
    fdiv c (cvt n) = pack (fsign c) (roundMag (units c * unitsPerOne) (n * unitsPerOne)) := by
  obtain ⟨hfin, hsign, hunits⟩ := cvt_spec hn
  have hzero : isZero (cvt n) = false := by
    refine Bool.eq_false_iff.2 fun h => (Nat.mul_pos hpos unitsPerOne_pos).ne' ?_
    rw [← hunits, units, fmag_of_isZero h]
    rfl
  rw [fdiv, isNaN_of_isFinite hc, isNaN_of_isFinite hfin, isInf_of_isFinite hc, isInf_of_isFinite hfin, hzero, hsign,
    hunits, Bool.bne_false]
  rfl

/-- The quotient is no greater than the value divided, so it does not overflow (41_quant R105). -/
theorem isFinite_and_fsign_fdiv_cvt (hc : isFinite c = true) (hpos : 1 ≤ n) (hn : n ≤ 2 ^ 53) :
    isFinite (fdiv c (cvt n)) = true ∧ fsign (fdiv c (cvt n)) = fsign c := by
  have hle : roundMag (units c * unitsPerOne) (n * unitsPerOne) ≤ fmag c :=
    roundMag_le_of_le (Nat.mul_pos hpos unitsPerOne_pos)
      (Nat.mul_le_mul_left _ (Nat.le_mul_of_pos_left _ hpos))
  have hlt := hle.trans_lt (fmag_lt_of_isFinite hc)
  rw [fdiv_cvt hc hpos hn, isFinite_pack _ hlt, fsign_pack _ (hlt.trans infMag_lt)]
  exact ⟨rfl, rfl⟩

/-- A quotient that is a magnitude is exact. -/
theorem units_fdiv_cvt (hc : isFinite c = true) (hpos : 1 ≤ n) (hn : n ≤ 2 ^ 53) {x : Nat} (hx : IsMagnitude x)
    (hmul : units c = x * n) : units (fdiv c (cvt n)) = x := by
  obtain ⟨hlt, hval⟩ := hx.roundMag_mul (Nat.mul_pos hpos unitsPerOne_pos)
  rw [fdiv_cvt hc hpos hn, hmul, mul_assoc, units_pack _ hlt, hval]

end Division

theorem entry_toNat_le (entry : BitVec 16) : entry.toNat ≤ 2 ^ 53 := entry.isLt.le.trans (by norm_num)

/-- Settles O53: the quotient is finite and keeps the sign, and so does RND, which answers an integer. -/
theorem quantOfFiniteIsFiniteInteger : Obligations.QuantOfFiniteIsFiniteInteger := by
  intro mode entry c hentry hc
  obtain ⟨hq, hqsign⟩ := isFinite_and_fsign_fdiv_cvt hc hentry (entry_toNat_le entry)
  obtain ⟨hfin, hsign, -⟩ := rnd_spec mode hq
  refine ⟨hfin, ⟨(if fsign c then -1 else 1) * roundHalf mode (units (fdiv c (cvt entry.toNat))) unitsPerOne, ?_⟩,
    hsign.trans hqsign⟩
  rw [quantCell, toRat_rnd mode hq, hqsign]
  push_cast
  rfl

/-- Settles O51: the multiplier is a finite value, so the division is exact, and RND leaves the integer alone. -/
theorem quantRecoversExactMultiplier : Obligations.QuantRecoversExactMultiplier := by
  intro mode entry c k hentry hc hk hlt
  obtain ⟨hq, hqsign⟩ := isFinite_and_fsign_fdiv_cvt hc hentry (entry_toNat_le entry)
  have hentry0 : (entry.toNat : ℚ) ≠ 0 := Nat.cast_ne_zero.2 (by omega)
  have hU : (unitsPerOne : ℚ) ≠ 0 := Nat.cast_ne_zero.2 unitsPerOne_pos.ne'
  rw [abs_mul, Nat.abs_cast, Int.abs_eq_natAbs] at hlt
  have hkle : k.natAbs ≤ 2 ^ 53 := (Nat.le_mul_of_pos_right _ hentry).trans (by exact_mod_cast hlt.le)
  have hunits : units c = k.natAbs * unitsPerOne * entry.toNat := by
    have habs := abs_toRat c
    rw [hk, abs_mul, Nat.abs_cast, eq_div_iff hU, ← Int.cast_abs, Int.abs_eq_natAbs, Int.cast_natCast,
      mul_right_comm] at habs
    exact_mod_cast habs.symm
  have hquot := units_fdiv_cvt hc hentry (entry_toNat_le entry) (isMagnitude_mul_unitsPerOne hkle) hunits
  rw [quantCell, rnd_of_dvd mode hq (hquot ▸ Nat.dvd_mul_left _ _)]
  refine ⟨hq, mul_right_cancel₀ hentry0 ?_⟩
  rw [← hk, toRat_eq, toRat_eq c, hqsign, hquot, hunits]
  push_cast
  field_simp

/-- Settles O52: the stored result is RND of the exact quotient, which rounds as the real quotient does. -/
theorem quantMatchesLevelR : Obligations.QuantMatchesLevelR := by
  intro cfg C i j hentry hc hexact
  obtain ⟨hq, -⟩ := isFinite_and_fsign_fdiv_cvt hc hentry (entry_toNat_le _)
  obtain ⟨hfin, -, -⟩ := rnd_spec cfg.roundMode hq
  have hstored : quantResult cfg C i j = rnd cfg.roundMode (fdiv (cellOf C i j) (cvt (cfg.entry i j).toNat)) :=
    storeResult_of_not_nan _ (isNaN_of_isFinite hfin)
  rw [hstored, toReal_rnd _ hq, quantR, toReal, hexact, Rat.cast_div, Rat.cast_natCast, ← toReal]

end Sys2Proof.Machine

/-! SUPPORT. Proofs of the family 42_idct: the datapath's value of the grid that a window holds, and the level-R
transforms as matrix products with the orthogonal matrix of the cosine basis. -/

namespace Sys2Proof.Machine

/-! ### IDCT over a window that holds a grid -/

theorem idctCell_congr (cos : F64 → F64) {n m : Nat} {C C' : Window}
    (h : ∀ u < n, ∀ v < m, cellOf C u v = cellOf C' u v) (x y : Nat) :
    idctCell cos n m C x y = idctCell cos n m C' x y :=
  accumulate_congr fun u hu v hv => by rw [h u hu v hv]

/-- IDCT stores the datapath's value of any grid that its source window agrees with (42_idct R117). -/
theorem storedAs_idctResult {n m : Nat} {C C' : Window} (h : ∀ u < n, ∀ v < m, cellOf C' u v = cellOf C u v)
    (x y : Nat) : StoredAs (idctCell cosine n m C x y) (idctResult n m C' x y) := by
  rw [← idctCell_congr cosine h]
  exact storedAs_storeResult _ _

/-- Settles O12: the command completes, and a cell of its window stores the datapath's value of the grid that the source
window holds. -/
theorem idctWritesInverseTransform : Obligations.IdctWritesInverseTransform := by
  intro src n m s C _ _ hwf hC
  refine ⟨commandResult (.idct src n m) s, exec_of_wellFormed hwf hC.written, fun x hx y hy => ?_, rfl, rfl,
    commandResult_frame _ s⟩
  exact ⟨_, commandResult_cell_window (.idct src n m) s hx hy,
    storedAs_idctResult (fun u hu v hv => hC.cellOf_sourceWindow hu hv) x y⟩

/-! ### Level R -/

section LevelR
open Finset Matrix

/-- The grid with the single coefficient c at the origin has one term, whose cosines are 1. -/
theorem idctR_origin {n m : ℕ} (hn : 0 < n) (hm : 0 < m) (c : ℝ) (x y : ℕ) :
    idctR n m (fun u v => if u = 0 ∧ v = 0 then c else 0) x y = alphaR 0 n * alphaR 0 m * c := by
  rw [idctR, ← sum_product', sum_eq_single (0, 0)]
  · simp [cosR_zero]
  · rintro ⟨u, v⟩ - hne
    rw [if_neg (by simpa using hne)]
    ring
  · intro hnot
    exact absurd (by simp [hn, hm]) hnot

/-- Settles O57: the one term's normalisation is 1/√(n·m). -/
theorem originCoefficientGivesConstantGrid : Obligations.OriginCoefficientGivesConstantGrid := by
  intro n m c x y hx hy
  rw [idctR_origin (by omega) (by omega), alphaR_zero_mul_alphaR_zero, mul_comm, div_eq_mul_inv]

/-- The product formula of the cosine, summed over the samples: it leaves two single frequencies, whose sums
`sum_cosR_eq_zero` and `sum_cosR_zero` give. -/
theorem sum_cosR_mul_cosR {u v : ℕ} (huv : u ≤ v) (d : ℕ) :
    ∑ x ∈ range d, cosR u x d * cosR v x d =
      (∑ x ∈ range d, cosR (v - u) x d + ∑ x ∈ range d, cosR (v + u) x d) / 2 := by
  rw [← sum_add_distrib, sum_div]
  refine sum_congr rfl fun x _ => ?_
  have hcos := Real.two_mul_cos_mul_cos (Real.pi * v * (2 * x + 1) / (2 * d)) (Real.pi * u * (2 * x + 1) / (2 * d))
  rw [← sub_div, ← add_div, ← sub_mul, ← add_mul, ← mul_sub, ← mul_add, ← Nat.cast_sub huv, ← Nat.cast_add] at hcos
  simp only [cosR, ← hcos]
  ring

theorem sum_cosR_zero (d : ℕ) : ∑ x ∈ range d, cosR 0 x d = d := by simp [cosR_zero]

theorem sum_cosR_mul_cosR_of_lt {u v d : ℕ} (huv : u < v) (hv : v < d) :
    ∑ x ∈ range d, cosR u x d * cosR v x d = 0 := by
  rw [sum_cosR_mul_cosR huv.le, sum_cosR_eq_zero (by omega) (by omega), sum_cosR_eq_zero (by omega) (by omega)]
  norm_num

/-- The normalisation of a frequency makes its cosines a vector of length 1. -/
theorem alphaR_sq_mul_sum_cosR_sq {u d : ℕ} (hu : u < d) :
    alphaR u d * alphaR u d * ∑ x ∈ range d, cosR u x d * cosR u x d = 1 := by
  have hd : (d : ℝ) ≠ 0 := Nat.cast_ne_zero.2 (by omega)
  rw [sum_cosR_mul_cosR le_rfl, Nat.sub_self, sum_cosR_zero]
  rcases Nat.eq_zero_or_pos u with rfl | hpos
  · rw [sum_cosR_zero, alphaR, if_pos rfl, Real.mul_self_sqrt (by positivity)]
    field
  · rw [sum_cosR_eq_zero (by omega) (by omega), alphaR, if_neg hpos.ne', Real.mul_self_sqrt (by positivity)]
    field

/-- The matrix of the transform of one dimension: row k is frequency k, normalised (43_numerics R131, R132). -/
noncomputable def basisR (d : ℕ) : Matrix (Fin d) (Fin d) ℝ := .of fun k i => alphaR k d * cosR k i d

/-- The n×m part of a grid as a matrix. -/
def gridMatrix (n m : ℕ) (S : ℕ → ℕ → ℝ) : Matrix (Fin n) (Fin m) ℝ := .of fun x y => S x y

theorem basisR_mul_transpose_apply {d : ℕ} (u v : Fin d) : (basisR d * (basisR d)ᵀ) u v =
    alphaR u d * alphaR v d * ∑ x ∈ range d, cosR u x d * cosR v x d := by
  rw [mul_apply, sum_range, mul_sum]
  refine sum_congr rfl fun x _ => ?_
  simp only [basisR, transpose_apply, of_apply]
  ring

/-- The normalised cosine basis is orthonormal: a product of distinct frequencies below d sums to 0, a square to 1. -/
theorem basisR_mul_transpose (d : ℕ) : basisR d * (basisR d)ᵀ = 1 := by
  ext u v
  rw [basisR_mul_transpose_apply]
  rcases lt_trichotomy u v with h | rfl | h
  · rw [sum_cosR_mul_cosR_of_lt h v.isLt, mul_zero, one_apply_ne h.ne]
  · rw [alphaR_sq_mul_sum_cosR_sq u.isLt, one_apply_eq]
  · simp only [mul_comm (cosR u _ d)]
    rw [sum_cosR_mul_cosR_of_lt h u.isLt, mul_zero, one_apply_ne h.ne']

/-- A square matrix with orthonormal rows has orthonormal columns. -/
theorem transpose_mul_basisR (d : ℕ) : (basisR d)ᵀ * basisR d = 1 := mul_eq_one_comm.1 (basisR_mul_transpose d)

/-- FDCT_R multiplies the grid by the basis on both sides (40_fdct R91). -/
theorem gridMatrix_fdctR (n m : ℕ) (S : ℕ → ℕ → ℝ) :
    gridMatrix n m (fdctR n m S) = basisR n * gridMatrix n m S * (basisR m)ᵀ := by
  ext u v
  simp only [gridMatrix, of_apply, fdctR, mul_apply, basisR, transpose_apply, sum_range, mul_sum, sum_mul]
  rw [sum_comm]
  refine sum_congr rfl fun y _ => sum_congr rfl fun x _ => ?_
  ring

/-- IDCT_R multiplies the grid by the transposed basis on both sides (42_idct R116). -/
theorem gridMatrix_idctR (n m : ℕ) (C : ℕ → ℕ → ℝ) :
    gridMatrix n m (idctR n m C) = (basisR n)ᵀ * gridMatrix n m C * basisR m := by
  ext x y
  simp only [gridMatrix, of_apply, idctR, mul_apply, basisR, transpose_apply, sum_range, sum_mul]
  rw [sum_comm]
  refine sum_congr rfl fun v _ => sum_congr rfl fun u _ => ?_
  ring

theorem gridMatrix_idctR_fdctR (n m : ℕ) (S : ℕ → ℕ → ℝ) :
    gridMatrix n m (idctR n m (fdctR n m S)) = gridMatrix n m S := by
  calc gridMatrix n m (idctR n m (fdctR n m S))
      = ((basisR n)ᵀ * basisR n) * gridMatrix n m S * ((basisR m)ᵀ * basisR m) := by
        simp only [gridMatrix_idctR, gridMatrix_fdctR, Matrix.mul_assoc]
    _ = gridMatrix n m S := by rw [transpose_mul_basisR, transpose_mul_basisR, Matrix.one_mul, Matrix.mul_one]

theorem gridMatrix_fdctR_idctR (n m : ℕ) (C : ℕ → ℕ → ℝ) :
    gridMatrix n m (fdctR n m (idctR n m C)) = gridMatrix n m C := by
  calc gridMatrix n m (fdctR n m (idctR n m C))
      = (basisR n * (basisR n)ᵀ) * gridMatrix n m C * (basisR m * (basisR m)ᵀ) := by
        simp only [gridMatrix_fdctR, gridMatrix_idctR, Matrix.mul_assoc]
    _ = gridMatrix n m C := by rw [basisR_mul_transpose, basisR_mul_transpose, Matrix.one_mul, Matrix.mul_one]

/-- Grids with the same matrix agree on the window. -/
theorem eq_of_gridMatrix_eq {n m : ℕ} {S S' : ℕ → ℕ → ℝ} (h : gridMatrix n m S = gridMatrix n m S') {x y : ℕ}
    (hx : x < n) (hy : y < m) : S x y = S' x y :=
  congrFun (congrFun h ⟨x, hx⟩) ⟨y, hy⟩

/-- Settles O56: both transforms are products with the orthogonal basis matrices, which cancel. -/
theorem inverseUndoesForward : Obligations.InverseUndoesForward := fun n m S _ _ hx hy =>
  ⟨eq_of_gridMatrix_eq (gridMatrix_idctR_fdctR n m S) hx hy, eq_of_gridMatrix_eq (gridMatrix_fdctR_idctR n m S) hx hy⟩

end LevelR

end Sys2Proof.Machine

/-! SUPPORT. Proofs of the family 43_numerics: QUANT against level R, the operations on the special values, the value of
a word, one rounding of an exact result as the nearest even value, and the bounds of the factors of the transforms. -/

namespace Sys2Proof.Machine

/-! ### QUANT cell by cell -/

/-- What a command that goes on leaves in a cell of a written destination window is the result of its source grid. -/
theorem quant_cell_of_exec {src : Bank} {n m : BitVec 12} {s t : State} {i j : Nat} (hi : i < n.toNat)
    (hj : j < m.toNat) (hwf : (Instr.quant src n m).WellFormed s.config) (h : exec (.quant src n m) s = .next t) :
    ∃ v, s.cell src i j = some v ∧
      t.cell (otherBank src) i j = some (quantStored s.config.roundMode (s.config.entry i j) v) := by
  rcases exec_next h with ⟨hnot, -⟩ | ⟨-, hdef, rfl⟩
  · exact absurd hwf hnot
  · obtain ⟨v, hv⟩ := firstUndef_eq_none.1 hdef i hi j hj
    have hcell : cellOf (sourceWindow s.mem src n.toNat m.toNat) i j = v := Machine.cellOf_sourceWindow hi hj hv
    refine ⟨v, hv, (commandResult_cell_window (.quant src n m) s hi hj).trans ?_⟩
    rw [← hcell]
    rfl

/-- Settles O17: either run stores what one cell, its entry and the mode make, and both have the same three. -/
theorem quantCellDependsOnItsOwnCell : Obligations.QuantCellDependsOnItsOwnCell := by
  intro src n m s s' t t' i j hi hj hwf hwf' hmode hentry hcell ht ht'
  obtain ⟨v, hv, hres⟩ := quant_cell_of_exec hi hj hwf ht
  obtain ⟨v', hv', hres'⟩ := quant_cell_of_exec hi hj hwf' ht'
  rw [entry_mod, entry_mod] at hentry
  have hvv : v = v' := Option.some.inj (hv.symm.trans (hcell.trans hv'))
  rw [hres, hres', hmode, hentry, hvv]

/-! ### QUANT where the division crosses no half-integer -/

/-- A magnitude less than a half from an integer is rounded to it, in both modes. -/
theorem roundR_of_abs_sub_lt_of_nonneg (mode : RoundMode) {x : ℝ} (hx : 0 ≤ x) {k : ℤ} (h : |x - k| < 1 / 2) :
    roundR mode x = k := by
  obtain ⟨hlow, hhigh⟩ := abs_lt.1 h
  have hfloor := Int.floor_le x
  have hfloor' := Int.lt_floor_add_one x
  have hnear : ⌊x⌋ = k ∨ ⌊x⌋ + 1 = k := by
    have h1 : (⌊x⌋ : ℝ) < k + 1 := by linarith
    have h2 : (k : ℝ) < ⌊x⌋ + 2 := by linarith
    have h1' : ⌊x⌋ < k + 1 := by exact_mod_cast h1
    have h2' : k < ⌊x⌋ + 2 := by exact_mod_cast h2
    omega
  unfold roundR
  rw [if_neg hx.not_gt, abs_of_nonneg hx]
  rcases hnear with hk | hk
  · rw [if_pos (by rw [hk]; linarith), hk]
  · have hk' : (⌊x⌋ : ℝ) + 1 = k := by exact_mod_cast hk
    rw [if_neg (by linarith), if_pos (by linarith), hk]

theorem roundR_of_abs_sub_lt (mode : RoundMode) {x : ℝ} {k : ℤ} (h : |x - k| < 1 / 2) : roundR mode x = k := by
  rcases le_total 0 x with hx | hx
  · exact roundR_of_abs_sub_lt_of_nonneg mode hx h
  · have hneg : |-x - (-k : ℤ)| < 1 / 2 := by
      rwa [Int.cast_neg, neg_sub_neg, abs_sub_comm]
    rw [← neg_neg x, roundR_neg, roundR_of_abs_sub_lt_of_nonneg mode (neg_nonneg.2 hx) hneg, neg_neg]

/-- Two distinct values with no half-integer between them lie less than a half from the same integer. -/
theorem exists_int_near_of_not_roundsAcrossHalf {q q' : ℚ} (hne : q ≠ q') (h : ¬ RoundsAcrossHalf q q') :
    ∃ k : ℤ, |q - k| < 1 / 2 ∧ |q' - k| < 1 / 2 := by
  have hno (j : ℤ) : (j : ℚ) + 1 / 2 < min q q' ∨ max q q' < j + 1 / 2 := by
    by_contra hcon
    push Not at hcon
    exact h ⟨hne, j, hcon⟩
  refine ⟨⌊q + 1 / 2⌋, ?_⟩
  have hfloor := Int.floor_le (q + 1 / 2)
  have hfloor' := Int.lt_floor_add_one (q + 1 / 2)
  have hbelow := hno (⌊q + 1 / 2⌋ - 1)
  have habove := hno ⌊q + 1 / 2⌋
  push_cast at hbelow
  rw [lt_min_iff, max_lt_iff] at hbelow habove
  refine ⟨abs_lt.2 ⟨?_, by linarith⟩, abs_lt.2 ⟨?_, ?_⟩⟩
  · rcases hbelow with hb | hb <;> linarith
  · rcases hbelow with hb | hb <;> linarith
  · rcases habove with ha | ha <;> linarith

/-- Rounding tells two values apart only across a half-integer. -/
theorem roundR_eq_of_not_roundsAcrossHalf (mode : RoundMode) {q q' : ℚ} (h : ¬ RoundsAcrossHalf q q') :
    roundR mode q = roundR mode q' := by
  by_cases hne : q = q'
  · rw [hne]
  · obtain ⟨k, hq, hq'⟩ := exists_int_near_of_not_roundsAcrossHalf hne h
    have hcast (p : ℚ) (hp : |p - k| < 1 / 2) : |(p : ℝ) - k| < 1 / 2 := by
      simpa using (Rat.cast_lt (K := ℝ)).2 hp
    rw [roundR_of_abs_sub_lt mode (hcast q hq), roundR_of_abs_sub_lt mode (hcast q' hq')]

/-- A finite coefficient over an entry of at least 1 stores the rounded value of the level-F quotient. -/
theorem quantResult_of_isFinite {cfg : Config} {C : Window} {i j : Nat} (hentry : 1 ≤ (cfg.entry i j).toNat)
    (hc : isFinite (cellOf C i j) = true) : isFinite (quantResult cfg C i j) = true ∧
      toReal (quantResult cfg C i j) =
        roundR cfg.roundMode (toRat (fdiv (cellOf C i j) (cvt (cfg.entry i j).toNat)) : ℝ) := by
  obtain ⟨hq, -⟩ := isFinite_and_fsign_fdiv_cvt hc hentry (entry_toNat_le _)
  obtain ⟨hfin, -, -⟩ := rnd_spec cfg.roundMode hq
  have hstored : quantResult cfg C i j = rnd cfg.roundMode (fdiv (cellOf C i j) (cvt (cfg.entry i j).toNat)) :=
    storeResult_of_not_nan _ (isNaN_of_isFinite hfin)
  rw [hstored, toReal_rnd _ hq]
  exact ⟨hfin, rfl⟩

/-- Settles O58: the rounding of the quotient crosses no half-integer, so RND of it is the rounding of the exact one. -/
theorem quantAgreesWithLevelR : Obligations.QuantAgreesWithLevelR := by
  intro c hvalid n m C _ hfin i hi j hj hacross
  obtain ⟨-, -, htable⟩ := hvalid
  have hentry : 1 ≤ (c.entry i j).toNat := by
    rw [← entry_mod]
    exact htable _ (Nat.mod_lt _ (by norm_num)) _ (Nat.mod_lt _ (by norm_num))
  obtain ⟨hres, hval⟩ := quantResult_of_isFinite hentry (hfin i hi j hj)
  have hexact : quantR c (fun x y => toReal (cellOf C x y)) i j = toReal (quantResult c C i j) := by
    rw [hval, ← roundR_eq_of_not_roundsAcrossHalf c.roundMode hacross, quantR, toReal, Rat.cast_div, Rat.cast_natCast]
  refine ⟨hres, ?_⟩
  rw [hexact, sub_self, abs_zero]

/-! ### The operations on the special values -/

section SpecialValues
variable {a b : F64}

theorem isNaN_of_isInf (h : isInf a = true) : isNaN a = false := by
  rw [← pack_infMag_of_isInf h, isNaN_pack _ le_rfl]

theorem isFinite_of_isZero (h : isZero a = true) : isFinite a = true := by
  rw [← pack_zero_of_isZero h, isFinite_pack _ (by decide)]

/-- Minus a value is the same magnitude under the other sign. -/
theorem fsign_fneg (w : F64) : fsign (fneg w) = !fsign w := by
  rw [fneg, fsign, BitVec.msb_xor, fsign, show (0x8000000000000000#64).msb = true by decide, Bool.xor_true]

theorem fmag_fneg (w : F64) : fmag (fneg w) = fmag w := by
  rw [fmag, fneg, BitVec.toNat_xor, Nat.xor_mod_two_pow]
  exact Nat.xor_zero _

theorem isNaN_fneg (w : F64) : isNaN (fneg w) = isNaN w := by rw [isNaN, isNaN, fmag_fneg]

theorem isFinite_fneg (w : F64) : isFinite (fneg w) = isFinite w := by rw [isFinite, isFinite, fmag_fneg]

theorem signedUnits_fneg (w : F64) : signedUnits (fneg w) = -signedUnits w := by
  rw [signedUnits, signedUnits, units, units, fmag_fneg, fsign_fneg]
  cases fsign w <;> simp

theorem fdiv_of_nan (h : isNaN a = true ∨ isNaN b = true) : fdiv a b = qnan :=
  if_pos (Bool.or_eq_true_iff.2 h)

theorem fsub_of_nan (h : isNaN a = true ∨ isNaN b = true) : fsub a b = qnan :=
  fadd_of_nan (h.imp_right (isNaN_fneg b).trans)

theorem fadd_of_isInf_of_fsign_ne (ha : isInf a = true) (hb : isInf b = true) (hne : fsign a ≠ fsign b) :
    fadd a b = qnan := by
  simp [fadd, ha, hb, hne]

theorem fadd_of_isInf_of_isFinite (ha : isInf a = true) (hb : isFinite b = true) : fadd a b = a := by
  simp [fadd, isNaN_of_isInf ha, isNaN_of_isFinite hb, isInf_of_isFinite hb, ha]

theorem fadd_of_isFinite_of_isInf (ha : isFinite a = true) (hb : isInf b = true) : fadd a b = b := by
  simp [fadd, isNaN_of_isInf hb, isNaN_of_isFinite ha, isInf_of_isFinite ha, hb]

theorem fadd_of_isFinite (ha : isFinite a = true) (hb : isFinite b = true) :
    fadd a b = packSum (fsign a && fsign b) (signedUnits a + signedUnits b) := by
  simp [fadd, isNaN_of_isFinite ha, isNaN_of_isFinite hb, isInf_of_isFinite ha, isInf_of_isFinite hb]

theorem fmul_of_isZero_of_isInf (ha : isZero a = true) (hb : isInf b = true) : fmul a b = qnan := by
  simp [fmul, ha, hb]

theorem fmul_of_isInf_of_isFinite (ha : isInf a = true) (hb : isFinite b = true) (hb0 : isZero b = false) :
    fmul a b = pack (fsign a != fsign b) infMag := by
  simp [fmul, isNaN_of_isInf ha, isNaN_of_isFinite hb, isZero_of_isInf ha, ha, hb0]

theorem fmul_of_isFinite (ha : isFinite a = true) (hb : isFinite b = true) :
    fmul a b = pack (fsign a != fsign b) (roundMag (units a * units b) unitsPerOne) := by
  simp [fmul, isNaN_of_isFinite ha, isNaN_of_isFinite hb, isInf_of_isFinite ha, isInf_of_isFinite hb]

theorem fdiv_of_isInf (ha : isInf a = true) (hb : isInf b = true) : fdiv a b = qnan := by
  simp [fdiv, ha, hb]

theorem fdiv_of_isInf_of_isFinite (ha : isInf a = true) (hb : isFinite b = true) :
    fdiv a b = pack (fsign a != fsign b) infMag := by
  simp [fdiv, isNaN_of_isInf ha, isNaN_of_isFinite hb, isInf_of_isFinite hb, ha]

theorem fdiv_of_isZero (ha : isZero a = true) (hb : isZero b = true) : fdiv a b = qnan := by
  simp [fdiv, isInf_of_isFinite (isFinite_of_isZero ha), isInf_of_isFinite (isFinite_of_isZero hb), ha, hb]

theorem fdiv_of_isFinite (ha : isFinite a = true) (hb : isFinite b = true) (hb0 : isZero b = false) :
    fdiv a b = pack (fsign a != fsign b) (roundMag (units a * unitsPerOne) (units b)) := by
  simp [fdiv, isNaN_of_isFinite ha, isNaN_of_isFinite hb, isInf_of_isFinite ha, isInf_of_isFinite hb, hb0]

/-- A product is the one NaN or carries the exclusive-or of the signs. -/
theorem fmul_cases (a b : F64) : fmul a b = qnan ∨ ∃ g ≤ infMag, fmul a b = pack (fsign a != fsign b) g := by
  unfold fmul
  split
  · exact .inl rfl
  · split
    · split
      · exact .inl rfl
      · exact .inr ⟨_, le_rfl, rfl⟩
    · exact .inr ⟨_, roundMag_le _ _, rfl⟩

/-- A quotient is the one NaN or carries the exclusive-or of the signs. -/
theorem fdiv_cases (a b : F64) : fdiv a b = qnan ∨ ∃ g ≤ infMag, fdiv a b = pack (fsign a != fsign b) g := by
  unfold fdiv
  split
  · exact .inl rfl
  · split
    · split
      · exact .inl rfl
      · exact .inr ⟨_, le_rfl, rfl⟩
    · split
      · exact .inr ⟨_, Nat.zero_le _, rfl⟩
      · split
        · split
          · exact .inl rfl
          · exact .inr ⟨_, le_rfl, rfl⟩
        · exact .inr ⟨_, roundMag_le _ _, rfl⟩

/-- What is no NaN among a NaN and the words of one sign has that sign. -/
theorem fsign_of_qnan_or_pack {w : F64} {s : Bool} (h : w = qnan ∨ ∃ g ≤ infMag, w = pack s g)
    (hnan : isNaN w = false) : fsign w = s := by
  rcases h with rfl | ⟨g, hg, rfl⟩
  · exact absurd isNaN_qnan (Bool.eq_false_iff.1 hnan)
  · exact fsign_pack s (hg.trans_lt infMag_lt)

end SpecialValues

theorem cosine_of_nan {a : F64} (h : isNaN a = true) : cosine a = qnan := by
  have hne : a ≠ fzero := by
    rintro rfl
    exact absurd h (by decide)
  rw [cosine, if_neg hne, if_pos h]

/-- Settles O44: every case answers the one NaN that the datapath carries, and a store keeps it a NaN. -/
theorem naNRules : Obligations.NaNRules := by
  refine ⟨fun a b h => ?_, fun a b ha hb hne => ?_, fun a b ha hb => ?_, fun a b ha hb => ?_, fun a b ha hb => ?_,
    fun a h => ⟨?_, ?_, fun mode => isNaN_rnd mode h⟩, fun draw x h => isNaN_storeResult draw h⟩
  · rw [fadd_of_nan h, fsub_of_nan h, fmul_of_nan h, fdiv_of_nan h, isNaN_qnan]
    exact ⟨rfl, rfl, rfl, rfl⟩
  · rw [fadd_of_isInf_of_fsign_ne ha hb hne, isNaN_qnan]
  · rw [fmul_comm b, fmul_of_isZero_of_isInf ha hb, isNaN_qnan]
    exact ⟨rfl, rfl⟩
  · rw [fdiv_of_isInf ha hb, isNaN_qnan]
  · rw [fdiv_of_isZero ha hb, isNaN_qnan]
  · rw [cosine_of_nan h, isNaN_qnan]
  · rw [fsqrt, if_pos h, isNaN_qnan]

/-- Settles O45: one equation of the operations for each case. -/
theorem infinityRules : Obligations.InfinityRules := by
  intro a b ha hb
  refine ⟨fadd_of_isInf_of_isFinite ha hb, fadd_of_isFinite_of_isInf hb ha, fun hb0 => ?_⟩
  rw [fmul_comm b, fmul_of_isInf_of_isFinite ha hb hb0]
  exact ⟨rfl, rfl, fdiv_of_isInf_of_isFinite ha hb⟩

/-- An exact cancellation is +0.0 (43_numerics R136). -/
theorem fadd_fneg {x : F64} (h : isFinite x = true) : fadd x (fneg x) = fzero := by
  rw [fadd_of_isFinite h ((isFinite_fneg x).trans h), signedUnits_fneg, add_neg_cancel, fsign_fneg, Bool.and_not_self]
  rfl

/-- Settles O46: a product or quotient is a NaN or has the sign of the rule, and an exact zero sum is decided by the two
signs. -/
theorem signRules : Obligations.SignRules :=
  ⟨fun a b => fsign_of_qnan_or_pack (fmul_cases a b), fun a b => fsign_of_qnan_or_pack (fdiv_cases a b),
    fun _ => fadd_fneg, by decide, by decide⟩

/-! ### The value of a word -/

theorem getLsbD_63_eq_fsign (w : F64) : w.getLsbD 63 = fsign w := (BitVec.msb_eq_getLsbD_last w).symm

/-- Bits 62:0 are the exponent field over the fraction field. -/
theorem fmag_eq_fields (w : F64) : fmag w = w.toNat / 2 ^ 52 % 2048 * 2 ^ 52 + w.toNat % 2 ^ 52 := by
  have := w.isLt
  unfold fmag
  omega

theorem unitsPerOne_ne_zero : (unitsPerOne : ℚ) ≠ 0 := Nat.cast_ne_zero.2 unitsPerOne_pos.ne'

/-- A unit of 2^-1074, scaled to a normal value's exponent (43_numerics R125). -/
theorem two_pow_div_unitsPerOne {e : Nat} (he : 1 ≤ e) :
    (2 ^ (e - 1) : ℚ) / unitsPerOne = (2 : ℚ) ^ ((e : ℤ) - 1023) * (2 : ℚ) ^ (-52 : ℤ) := by
  have hU : (unitsPerOne : ℚ) = (2 : ℚ) ^ (1074 : ℤ) := by
    rw [unitsPerOne, Nat.cast_pow, Nat.cast_ofNat]
    rfl
  rw [hU, ← zpow_natCast, ← zpow_sub₀ two_ne_zero, ← zpow_add₀ two_ne_zero]
  congr 1
  omega

/-- The value of a word whose magnitude is n units scaled to a normal value's exponent. -/
theorem toRat_of_units {w : F64} {n e : Nat} (he : 1 ≤ e) (h : units w = n * 2 ^ (e - 1)) :
    toRat w = (if fsign w then -1 else 1) * (2 : ℚ) ^ ((e : ℤ) - 1023) * (n * (2 : ℚ) ^ (-52 : ℤ)) := by
  have hcast : ((n * 2 ^ (e - 1) : Nat) : ℚ) = n * 2 ^ (e - 1) := by push_cast; rfl
  rw [toRat_eq, h, hcast, mul_div_assoc, two_pow_div_unitsPerOne he]
  ring

/-- Settles O38: exponent and fraction are the two parts of bits 62:0, whose number of units the exponent scales. -/
theorem wordValueFollowsLayout : Obligations.WordValueFollowsLayout := by
  intro w sign e f
  have hmag : fmag w = e * 2 ^ 52 + f := fmag_eq_fields w
  have hsign : sign = if fsign w then -1 else 1 := by rw [← getLsbD_63_eq_fsign]
  have hf : f < 2 ^ 52 := Nat.mod_lt _ (by norm_num)
  have he : e < 2048 := Nat.mod_lt _ (by norm_num)
  have hinf : infMag = 2047 * 2 ^ 52 := by decide
  have hfinite (h : e ≤ 2046) : isFinite w = true := decide_eq_true (by omega)
  clear_value e f sign
  refine ⟨fun h1 h2 => ⟨hfinite h2, ?_⟩, fun h0 => ⟨hfinite (by omega), ?_⟩, ?_, ?_, ?_⟩
  · have hunits : units w = (2 ^ 52 + f) * 2 ^ (e - 1) := by
      have hfrac : (e * 2 ^ 52 + f) % 2 ^ 52 = f := by omega
      have hexp : (e * 2 ^ 52 + f) / 2 ^ 52 = e := by omega
      rw [units, hmag, magUnits, if_neg (by omega), hfrac, hexp]
    have hnormal : ((2 ^ 52 + f : Nat) : ℚ) * (2 : ℚ) ^ (-52 : ℤ) = 1 + f * (2 : ℚ) ^ (-52 : ℤ) := by
      push_cast
      rw [add_mul]
      norm_num
    rw [toRat_of_units h1 hunits, hsign, hnormal]
  · have hunits : units w = f * 2 ^ (1 - 1) := by
      rw [units, hmag, h0, zero_mul, zero_add, magUnits, if_pos hf, Nat.sub_self, pow_zero, mul_one]
    rw [toRat_of_units le_rfl hunits, hsign]
    norm_num
  · rw [isZero, beq_iff_eq, hmag]
    omega
  · rw [isInf, beq_iff_eq, hmag, hinf]
    omega
  · rw [isNaN, decide_eq_true_eq, hmag, hinf]
    omega

theorem toRat_cvt {n : Nat} (hn : n ≤ 2 ^ 53) : toRat (cvt n) = n := by
  obtain ⟨-, hsign, hunits⟩ := cvt_spec hn
  rw [toRat_eq, hsign, hunits, if_neg Bool.false_ne_true, one_mul, Nat.cast_mul,
    mul_div_cancel_right₀ _ unitsPerOne_ne_zero]

theorem cvt_one : cvt 1 = fone := by decide +kernel

theorem cvt_two : cvt 2 = ftwo := by decide +kernel

/-- Settles O40: the integers up to 2^53 are values, and those that the hardware converts are small. -/
theorem integersConvertExactly : Obligations.IntegersConvertExactly := by
  refine ⟨fun n hn => ?_, fun d i hd hi => by omega, fun e => e.isLt.trans (by norm_num), ?_, ?_⟩
  · obtain ⟨hfin, hsign, -⟩ := cvt_spec hn.le
    exact ⟨hfin, toRat_cvt hn.le, hsign⟩
  · rw [← cvt_one, toRat_cvt (by norm_num), Nat.cast_one]
  · rw [← cvt_two, toRat_cvt (by norm_num), Nat.cast_ofNat]

/-! ### The nearest magnitude -/

/-- The magnitude g is nearest to r units, and in a tie it is even. -/
def IsNearestMag (r : ℝ) (g : Nat) : Prop :=
  ∀ g', |(magUnits g : ℝ) - r| ≤ |(magUnits g' : ℝ) - r| ∧
    (|(magUnits g : ℝ) - r| = |(magUnits g' : ℝ) - r| → magUnits g' ≠ magUnits g → g % 2 = 0)

theorem isNearestMag_roundMag (num : Nat) {den : Nat} (hden : 0 < den) (hfin : roundMag num den < infMag) :
    IsNearestMag ((num : ℝ) / den) (roundMag num den) := by
  intro g'
  have hden' : (0 : ℝ) < den := Nat.cast_pos.2 hden
  have hdist (x : Nat) : |(x : ℝ) - num / den| = ((|(x : ℤ) * den - num| : ℤ) : ℝ) / den := by
    rw [eq_div_iff hden'.ne', ← abs_of_pos hden', ← abs_mul, sub_mul, abs_of_pos hden', div_mul_cancel₀ _ hden'.ne']
    push_cast
    rfl
  rw [hdist, hdist, div_le_div_iff_of_pos_right hden', div_left_inj' hden'.ne', Int.cast_le, Int.cast_inj]
  exact roundMag_nearest num hden hfin g'

/-- The real value of a word is its sign times its magnitude. -/
theorem toReal_eq (w : F64) : toReal w = (if fsign w then -1 else 1) * ((units w : ℝ) / unitsPerOne) := by
  rw [toReal, toRat_eq]
  split <;> push_cast <;> rfl

theorem unitsPerOne_pos_real : (0 : ℝ) < unitsPerOne := Nat.cast_pos.2 unitsPerOne_pos

theorem sign_mul_self (s : Bool) : (if s then -1 else 1 : ℝ) * (if s then -1 else 1) = 1 := by cases s <;> norm_num

theorem abs_sign_mul (s : Bool) (x : ℝ) : |(if s then -1 else 1) * x| = |x| := by cases s <;> simp

/-- The sign of a result factors out of its distance to any value. -/
theorem abs_toReal_sub (s : Bool) (r : ℝ) (c : F64) : |toReal c - (if s then -1 else 1) * (r / unitsPerOne)| =
    |(if s then -1 else 1) * (toReal c * unitsPerOne) - r| / unitsPerOne := by
  have hU := unitsPerOne_pos_real
  rw [← abs_sign_mul s, mul_sub, ← mul_assoc, sign_mul_self, one_mul, eq_div_iff hU.ne', ← abs_of_pos hU, ← abs_mul,
    sub_mul, abs_of_pos hU, div_mul_cancel₀ _ hU.ne', mul_assoc]

theorem abs_toReal_mul_unitsPerOne (c : F64) : |toReal c * unitsPerOne| = units c := by
  have hU := unitsPerOne_pos_real
  rw [toReal_eq, mul_assoc, abs_sign_mul, div_mul_cancel₀ _ hU.ne', Nat.abs_cast]

theorem sign_mul_toReal_pack (s : Bool) {g : Nat} (hg : g < infMag) :
    (if s then -1 else 1) * (toReal (pack s g) * unitsPerOne) = magUnits g := by
  have hU := unitsPerOne_pos_real
  rw [toReal_eq, fsign_pack s (hg.trans infMag_lt), units_pack s hg, ← mul_assoc, ← mul_assoc, sign_mul_self, one_mul,
    div_mul_cancel₀ _ hU.ne']

/-- The nearest magnitude under the sign of a result is the nearest value: a value of the other sign is no nearer than
its negative, and no value but a zero is as near as its negative to a magnitude above 0. -/
theorem IsNearestMag.isNearestEvenReal {r : ℝ} {g : Nat} (h : IsNearestMag r g) (hr : 0 ≤ r) (hg : g < infMag)
    (s : Bool) : IsNearestEvenReal ((if s then -1 else 1) * (r / unitsPerOne)) (pack s g) := by
  have hU := unitsPerOne_pos_real
  refine ⟨isFinite_pack s hg, fun c _ => ?_⟩
  have hne : toReal c ≠ toReal (pack s g) → (if s then -1 else 1) * (toReal c * unitsPerOne) ≠ magUnits g := by
    rw [← sign_mul_toReal_pack s hg]
    refine mt fun he => mul_right_cancel₀ hU.ne' (mul_left_cancel₀ ?_ he)
    exact left_ne_zero_of_mul_eq_one (sign_mul_self s)
  have habs := (abs_sign_mul s _).trans (abs_toReal_mul_unitsPerOne c)
  rw [abs_toReal_sub, abs_toReal_sub, div_le_div_iff_of_pos_right hU, div_left_inj' hU.ne', sign_mul_toReal_pack s hg,
    fmag_pack s (hg.trans infMag_lt)]
  generalize (if s then -1 else 1) * (toReal c * unitsPerOne) = y at hne habs ⊢
  obtain ⟨hle, htie⟩ := h (fmag c)
  have hrev : |(magUnits (fmag c) : ℝ) - r| ≤ |y - r| := by
    have := abs_abs_sub_abs_le y r
    rwa [habs, abs_of_nonneg hr] at this
  refine ⟨hle.trans hrev, fun he hc => htie (le_antisymm hle (hrev.trans_eq he.symm)) fun hmag => ?_⟩
  have hm : (0 : ℝ) ≤ magUnits g := Nat.cast_nonneg _
  have hneg : y = -magUnits g := by
    rw [units, hmag] at habs
    exact (eq_or_eq_neg_of_abs_eq habs).resolve_left (hne hc)
  have hmin : (magUnits g : ℝ) = 0 ∨ r = 0 := by
    rw [hneg, ← neg_add', abs_neg, abs_of_nonneg (add_nonneg hm hr)] at he
    rcases abs_choice ((magUnits g : ℝ) - r) with hs | hs
    · exact .inr (by linarith)
    · exact .inl (by linarith)
  have hzero : (magUnits g : ℝ) = 0 := by
    rcases hmin with h0 | h0
    · exact h0
    · have hle0 := (h 0).1
      rw [h0, show magUnits 0 = 0 from rfl, sub_zero, Nat.cast_zero, sub_zero, abs_zero] at hle0
      exact abs_nonpos_iff.1 hle0
  exact hne hc (by rw [hneg, hzero, neg_zero])

/-! ### The root -/

theorem two_mul_sqrt_lt_iff {x t : Nat} : 2 * √(x : ℝ) < t ↔ 4 * x < t ^ 2 := by
  rw [← sq_lt_sq₀ (by positivity) (by positivity), mul_pow, Real.sq_sqrt (by positivity)]
  norm_num
  exact_mod_cast Iff.rfl

theorem lt_two_mul_sqrt_iff {x t : Nat} : (t : ℝ) < 2 * √(x : ℝ) ↔ t ^ 2 < 4 * x := by
  rw [← sq_lt_sq₀ (by positivity) (by positivity), mul_pow, Real.sq_sqrt (by positivity)]
  norm_num
  exact_mod_cast Iff.rfl

theorem sqrt_lt_natCast_iff {x t : Nat} : √(x : ℝ) < t ↔ x < t ^ 2 := by
  rw [← sq_lt_sq₀ (by positivity) (by positivity), Real.sq_sqrt (by positivity)]
  exact_mod_cast Iff.rfl

/-- The search ends at the integer part of the scaled root. -/
theorem rootSearch_spec (x k : Nat) : ∀ {bits n : Nat}, (n * 2 ^ k) ^ 2 ≤ x → x < ((n + 2 ^ bits) * 2 ^ k) ^ 2 →
    (rootSearch x k bits n * 2 ^ k) ^ 2 ≤ x ∧ x < ((rootSearch x k bits n + 1) * 2 ^ k) ^ 2
  | 0, _, hle, hlt => ⟨hle, hlt⟩
  | bits + 1, n, hle, hlt => by
    rw [rootSearch]
    split
    · next h =>
      refine rootSearch_spec x k h (hlt.trans_eq ?_)
      rw [pow_succ 2 bits, mul_two, add_assoc]
    · next h => exact rootSearch_spec x k hle (not_le.1 h)

/-- The spacing exponent at the root of x. -/
def rootSpacing (x : Nat) : Nat := x.log2 / 2 - 52

/-- The integer nearest √x / 2^k, ties to even. -/
def nearestRoot (x k : Nat) : Nat :=
  let n := rootSearch x k 53 0
  if 4 * x < ((2 * n + 1) * 2 ^ k) ^ 2 then n else if ((2 * n + 1) * 2 ^ k) ^ 2 < 4 * x then n + 1 else n + n % 2

theorem rootMag_eq (x : Nat) :
    rootMag x = min (rootSpacing x * 2 ^ 52 + nearestRoot x (rootSpacing x)) infMag := rfl

/-- The root has at most 53 bits of the spacing, and exactly 53 unless the spacing is one unit. -/
theorem rootSpacing_spec (x : Nat) : x < (2 ^ 53 * 2 ^ rootSpacing x) ^ 2 ∧
    (rootSpacing x = 0 ∨ (2 ^ 52 * 2 ^ rootSpacing x) ^ 2 ≤ x) := by
  unfold rootSpacing
  rw [← pow_add, ← pow_add, ← pow_mul, ← pow_mul]
  constructor
  · exact Nat.lt_log2_self.trans_le (Nat.pow_le_pow_right two_pos (by omega))
  · by_cases hk : x.log2 / 2 - 52 = 0
    · exact .inl hk
    · have hx : x ≠ 0 := by
        rintro rfl
        exact hk (by simp)
      exact .inr ((Nat.pow_le_pow_right two_pos (by omega)).trans (Nat.log2_self_le hx))

section NearestRoot
variable {x k : Nat} (hlt : x < (2 ^ 53 * 2 ^ k) ^ 2)
include hlt

theorem rootSearch_53_spec : (rootSearch x k 53 0 * 2 ^ k) ^ 2 ≤ x ∧ x < ((rootSearch x k 53 0 + 1) * 2 ^ k) ^ 2 :=
  rootSearch_spec x k (by simp) (by rwa [zero_add])

theorem nearestRoot_bounds : nearestRoot x k ≤ 2 ^ 53 ∧ ((2 ^ 52 * 2 ^ k) ^ 2 ≤ x → 2 ^ 52 ≤ nearestRoot x k) := by
  obtain ⟨hlow, hhigh⟩ := rootSearch_53_spec hlt
  have hcmp {a b : Nat} (h : (a * 2 ^ k) ^ 2 < (b * 2 ^ k) ^ 2) : a < b :=
    Nat.lt_of_mul_lt_mul_right (lt_of_pow_lt_pow_left₀ 2 (Nat.zero_le _) h)
  have hn53 := hcmp (hlow.trans_lt hlt)
  have hn52 : (2 ^ 52 * 2 ^ k) ^ 2 ≤ x → 2 ^ 52 < rootSearch x k 53 0 + 1 := fun h => hcmp (h.trans_lt hhigh)
  unfold nearestRoot
  generalize rootSearch x k 53 0 = n at hn53 hn52 ⊢
  refine ⟨by dsimp only; split <;> [omega; split <;> omega], fun h => ?_⟩
  have := hn52 h
  dsimp only
  split <;> [omega; split <;> omega]

/-- The rounded root is at most half a spacing from the root, and where it is that far it is even. -/
theorem nearestRoot_spec : 2 * |(nearestRoot x k : ℝ) * 2 ^ k - √x| ≤ 2 ^ k ∧
    (2 * |(nearestRoot x k : ℝ) * 2 ^ k - √x| = 2 ^ k → nearestRoot x k % 2 = 0) := by
  obtain ⟨hlow, hhigh⟩ := rootSearch_53_spec hlt
  unfold nearestRoot
  generalize rootSearch x k 53 0 = n at hlow hhigh ⊢
  rw [← not_lt, ← sqrt_lt_natCast_iff, not_lt] at hlow
  rw [← sqrt_lt_natCast_iff] at hhigh
  simp only [← two_mul_sqrt_lt_iff, ← lt_two_mul_sqrt_iff]
  push_cast at hlow hhigh ⊢
  generalize √(x : ℝ) = r at hlow hhigh ⊢
  have hd : (0 : ℝ) < 2 ^ k := by positivity
  generalize (2 : ℝ) ^ k = d at hd hlow hhigh ⊢
  split
  · rw [abs_of_nonpos (by linarith)]
    exact ⟨by linarith, fun h => by linarith⟩
  · split
    · rw [abs_of_nonneg (by linarith)]
      exact ⟨by linarith, fun h => by linarith⟩
    · refine ⟨?_, fun _ => by omega⟩
      rcases Nat.mod_two_eq_zero_or_one n with hpar | hpar
      · rw [hpar, Nat.cast_zero, add_zero, abs_of_nonpos (by linarith)]
        linarith
      · rw [hpar, Nat.cast_one, abs_of_nonneg (by linarith)]
        linarith

end NearestRoot

/-- What is at most half a spacing away is nearest among the multiples of the spacing. -/
theorem nearest_of_two_mul_abs_le {n : Nat} {d r : ℝ} (hd : 0 < d) (h : 2 * |n * d - r| ≤ d)
    (htie : 2 * |n * d - r| = d → n % 2 = 0) (j : Nat) :
    |n * d - r| ≤ |j * d - r| ∧ (|n * d - r| = |j * d - r| → j ≠ n → n % 2 = 0) := by
  by_cases hj : j = n
  · rw [hj]
    exact ⟨le_rfl, fun _ hne => absurd rfl hne⟩
  · have hone : (1 : ℝ) ≤ |(j : ℝ) - n| := by
      have : (1 : ℤ) ≤ |(j : ℤ) - n| := Int.one_le_abs (by omega)
      exact_mod_cast this
    have hfar : d ≤ |j * d - n * d| := by
      rw [← sub_mul, abs_mul, abs_of_pos hd]
      exact le_mul_of_one_le_left hd.le hone
    have htri := abs_sub_le (j * d) r (n * d)
    rw [abs_sub_comm r] at htri
    exact ⟨by linarith, fun he _ => htie (by linarith)⟩

/-- The nearest multiple of the spacing is the nearest magnitude, where the result has 53 bits of the spacing or the
spacing is one unit. -/
theorem isNearestMag_of_scaled {k n : Nat} {r : ℝ} (hn : n ≤ 2 ^ 53) (hn52 : k = 0 ∨ 2 ^ 52 ≤ n)
    (hr : k = 0 ∨ 2 ^ 52 * 2 ^ k ≤ r)
    (hnear : ∀ j : Nat, |n * 2 ^ k - r| ≤ |j * 2 ^ k - r| ∧ (|n * 2 ^ k - r| = |j * 2 ^ k - r| → j ≠ n → n % 2 = 0)) :
    IsNearestMag r (k * 2 ^ 52 + n) := by
  intro g
  have hpar : (k * 2 ^ 52 + n) % 2 = n % 2 := by omega
  rw [magUnits_of_scaled hn hn52, hpar, Nat.cast_mul, Nat.cast_pow, Nat.cast_ofNat]
  by_cases hg : 2 ^ k ∣ magUnits g
  · obtain ⟨j, hj⟩ := hg
    rw [hj, mul_comm (2 ^ k) j, Nat.cast_mul, Nat.cast_pow, Nat.cast_ofNat]
    exact ⟨(hnear j).1, fun he hne => (hnear j).2 he fun hjn => hne (by rw [hjn])⟩
  · have hbig : 2 ^ 52 * 2 ^ k ≤ r := hr.resolve_left fun hk => hg (by rw [hk]; exact one_dvd _)
    have hsmall : (magUnits g : ℝ) < 2 ^ 52 * 2 ^ k := by
      have : magUnits g < 2 ^ 52 * 2 ^ k := not_le.1 fun h => hg (dvd_magUnits h)
      exact_mod_cast this
    have hle := (hnear (2 ^ 52)).1
    rw [Nat.cast_pow, Nat.cast_ofNat] at hle
    have hstrict : |(n : ℝ) * 2 ^ k - r| < |(magUnits g : ℝ) - r| := by
      rw [abs_of_nonpos (sub_nonpos.2 hbig)] at hle
      rw [abs_of_neg (a := (magUnits g : ℝ) - r) (by linarith)]
      linarith
    exact ⟨hstrict.le, fun he => absurd he hstrict.ne⟩

theorem isNearestMag_rootMag {x : Nat} (hfin : rootMag x < infMag) : IsNearestMag (√x) (rootMag x) := by
  obtain ⟨hlt, hge⟩ := rootSpacing_spec x
  obtain ⟨hn53, hn52⟩ := nearestRoot_bounds hlt
  obtain ⟨hhalf, htie⟩ := nearestRoot_spec hlt
  rw [rootMag_eq] at hfin ⊢
  rw [min_eq_left (not_lt.1 fun h => hfin.not_ge (min_eq_right h.le).ge)]
  refine isNearestMag_of_scaled hn53 (hge.imp_right hn52) (hge.imp_right fun h => ?_)
    (nearest_of_two_mul_abs_le (by positivity) hhalf htie)
  rw [← not_lt, ← sqrt_lt_natCast_iff, not_lt] at h
  exact_mod_cast h

/-! ### The square root of a finite value -/

/-- The root of fewer than 2^4000 squared units does not overflow. -/
theorem rootMag_lt_infMag {x e : Nat} (hx : x < 2 ^ e) (he : e ≤ 4000) : rootMag x < infMag := by
  have hlog : x.log2 ≤ e := by
    by_cases h0 : x = 0
    · simp [h0]
    · exact ((Nat.log2_lt h0).2 hx).le
  have hk : rootSpacing x < 2045 := by
    unfold rootSpacing
    omega
  obtain ⟨hn53, -⟩ := nearestRoot_bounds (rootSpacing_spec x).1
  have hinf : infMag = 2047 * 2 ^ 52 := by decide
  exact (rootMag_eq x).trans_lt (min_lt_of_left_lt (by omega))

theorem units_lt {a : F64} (h : isFinite a = true) : units a < 2 ^ 52 * 2 ^ 2046 :=
  (magUnits_strictMono (fmag_lt_of_isFinite h)).trans_eq magUnits_infMag

/-- The squared units of a finite value's root do not overflow. -/
theorem rootMag_units_lt_infMag {a : F64} (h : isFinite a = true) : rootMag (units a * unitsPerOne) < infMag := by
  have hlt : units a * unitsPerOne < 2 ^ (52 + 2046 + 1074) :=
    (Nat.mul_lt_mul_of_pos_right (units_lt h) unitsPerOne_pos).trans_eq (by rw [unitsPerOne, pow_add, pow_add])
  exact rootMag_lt_infMag hlt (by norm_num)

theorem fsqrt_of_isFinite {a : F64} (hfin : isFinite a = true) (hzero : isZero a = false) (hsign : fsign a = false) :
    fsqrt a = pack false (rootMag (units a * unitsPerOne)) := by
  simp [fsqrt, isNaN_of_isFinite hfin, isInf_of_isFinite hfin, hzero, hsign]

/-- Settles O41: the root of the squared units is the nearest magnitude, so the nearest value. -/
theorem squareRootIsNearest : Obligations.SquareRootIsNearest := by
  intro a hfin hzero hsign
  have hU := unitsPerOne_pos_real
  have hroot : √(toReal a) = √((units a * unitsPerOne : Nat) : ℝ) / unitsPerOne := by
    have hvalue : toReal a = ((units a * unitsPerOne : Nat) : ℝ) / unitsPerOne ^ 2 := by
      rw [toReal_eq, hsign, if_neg Bool.false_ne_true, one_mul, Nat.cast_mul]
      field_simp
    rw [hvalue, Real.sqrt_div (Nat.cast_nonneg _), Real.sqrt_sq hU.le]
  have hlt := rootMag_units_lt_infMag hfin
  have hnear := (isNearestMag_rootMag hlt).isNearestEvenReal (Real.sqrt_nonneg _) hlt false
  rwa [if_neg Bool.false_ne_true, one_mul, ← hroot, ← fsqrt_of_isFinite hfin hzero hsign] at hnear

/-! ### One rounding of an exact result -/

theorem nearestQuot_le_iff_of_odd {num d j : Nat} (hd : 0 < d) (hj : j % 2 = 1) :
    nearestQuot num d ≤ j ↔ 2 * num < (2 * j + 1) * d := by
  have hnum := Nat.div_add_mod num d
  have hr : num % d < d := Nat.mod_lt _ hd
  unfold nearestQuot
  generalize num / d = q at hnum ⊢
  generalize num % d = r at hnum hr ⊢
  rw [mul_comm] at hnum
  rw [← hnum, add_mul, one_mul, mul_assoc]
  rcases lt_trichotomy q j with h | rfl | h
  · have hmul : (q + 1) * d ≤ j * d := Nat.mul_le_mul_right d h
    rw [add_mul, one_mul] at hmul
    exact iff_of_true (by split <;> [omega; split <;> omega]) (by omega)
  · split <;> [omega; split <;> omega]
  · have hmul : (j + 1) * d ≤ q * d := Nat.mul_le_mul_right d h
    rw [add_mul, one_mul] at hmul
    exact iff_of_false (by split <;> [omega; split <;> omega]) (by omega)

/-- A fraction overflows exactly from half-way between the largest finite magnitude and 2^1024 on. -/
theorem roundMag_lt_infMag_iff {num den : Nat} (hden : 0 < den) :
    roundMag num den < infMag ↔ num < (2 ^ 54 - 1) * 2 ^ 2044 * den := by
  obtain ⟨hlt, hge⟩ := spacing_spec num hden
  have hinf : infMag = 2047 * 2 ^ 52 := by decide
  have hmin : roundMag num den < infMag ↔
      spacing num den * 2 ^ 52 + nearestQuot num (den * 2 ^ spacing num den) < infMag := by
    rw [roundMag_eq, min_lt_iff, or_iff_left (lt_irrefl _)]
  rw [hmin]
  generalize he : 2044 = e
  generalize spacing num den = k at hlt hge ⊢
  have hd : 0 < den * 2 ^ k := Nat.mul_pos hden (Nat.two_pow_pos k)
  obtain ⟨hn53, hn52⟩ := nearestQuot_bounds num hd hlt
  have hdouble : den * 2 ^ (e + 1) = 2 * (2 ^ e * den) := by ring
  rw [mul_assoc]
  rcases lt_trichotomy k (e + 1) with h | rfl | h
  · have hpow : den * 2 ^ k ≤ 2 ^ e * den := by
      rw [mul_comm]
      exact Nat.mul_le_mul_right _ (Nat.pow_le_pow_right two_pos (Nat.le_of_lt_succ h))
    generalize 2 ^ e * den = p at hpow ⊢
    exact iff_of_true (by omega) (by omega)
  · have hodd : (e + 1) * 2 ^ 52 + nearestQuot num (den * 2 ^ (e + 1)) < infMag ↔
        nearestQuot num (den * 2 ^ (e + 1)) ≤ 2 ^ 53 - 1 := by omega
    rw [hodd, nearestQuot_le_iff_of_odd hd (by norm_num), hdouble]
    generalize 2 ^ e * den = p
    omega
  · have hbig := hge.resolve_left (by omega)
    have hpow : den * 2 ^ (e + 1) * 2 ≤ den * 2 ^ k := by
      rw [mul_assoc, ← pow_succ]
      exact Nat.mul_le_mul_left _ (Nat.pow_le_pow_right two_pos h)
    have := hn52 hbig
    generalize 2 ^ e * den = p at hdouble ⊢
    exact iff_of_false (by omega) (by omega)

theorem isNearestEven_of_real {x : ℚ} {w : F64} (h : IsNearestEvenReal x w) : IsNearestEven x w := by
  refine ⟨h.1, fun c hc => ?_⟩
  have hdist (c : F64) : |toReal c - x| = ((|toRat c - x| : ℚ) : ℝ) := by
    rw [toReal]
    push_cast
    rfl
  have hc' := h.2 c hc
  rwa [hdist, hdist, Rat.cast_le, Rat.cast_inj, toReal, toReal, ne_eq, Rat.cast_inj] at hc'

theorem overflowBound_mul_unitsPerOne : overflowBound * unitsPerOne = ((2 ^ 54 - 1) * 2 ^ 2044 : Nat) := by
  have hU : (unitsPerOne : ℚ) = 2 ^ 1074 := Nat.cast_pow 2 1074
  have h1024 : (2 : ℚ) ^ 1024 = 2 ^ 54 * 2 ^ 970 := pow_add 2 54 970
  have h2044 : (2 : ℚ) ^ 2044 = 2 ^ 970 * 2 ^ 1074 := pow_add 2 970 1074
  rw [overflowBound, hU, h1024, Nat.cast_mul, Nat.cast_pow 2 2044, Nat.cast_two, h2044]
  generalize (2 : ℚ) ^ 970 = p
  generalize (2 : ℚ) ^ 1074 = u
  norm_num
  ring

theorem div_lt_overflowBound_iff (num : Nat) {den : Nat} (hden : 0 < den) :
    (num : ℚ) / den / unitsPerOne < overflowBound ↔ roundMag num den < infMag := by
  rw [div_lt_iff₀ (Nat.cast_pos.2 unitsPerOne_pos), overflowBound_mul_unitsPerOne, div_lt_iff₀ (Nat.cast_pos.2 hden),
    ← Nat.cast_mul, Nat.cast_lt, roundMag_lt_infMag_iff hden]

/-- One rounding of a signed fraction of units is what R126 asks for. -/
theorem roundsTo_pack_roundMag (s : Bool) (num : Nat) {den : Nat} (hden : 0 < den) :
    RoundsTo ((if s then -1 else 1) * ((num : ℚ) / den / unitsPerOne)) (pack s (roundMag num den)) := by
  have hnonneg : 0 ≤ (num : ℚ) / den / unitsPerOne :=
    div_nonneg (div_nonneg (Nat.cast_nonneg _) (Nat.cast_nonneg _)) (Nat.cast_nonneg _)
  have hbound : 0 < overflowBound := sub_pos.2 (pow_lt_pow_right₀ one_lt_two (by norm_num))
  have hover (h : overflowBound ≤ (num : ℚ) / den / unitsPerOne) : roundMag num den = infMag :=
    (roundMag_le _ _).eq_of_not_lt fun hlt => h.not_gt ((div_lt_overflowBound_iff num hden).2 hlt)
  refine ⟨fun h => ?_, fun h => ?_, fun h => ?_⟩
  · rw [abs_mul, abs_sign, one_mul, abs_of_nonneg hnonneg, div_lt_overflowBound_iff num hden] at h
    refine isNearestEven_of_real ?_
    have hnear := (isNearestMag_roundMag num hden h).isNearestEvenReal (by positivity) h s
    convert hnear using 1
    split <;> push_cast <;> rfl
  · cases s
    · rw [if_neg Bool.false_ne_true, one_mul] at h
      rw [hover h]
    · rw [if_pos rfl] at h
      linarith
  · cases s
    · rw [if_neg Bool.false_ne_true] at h
      linarith
    · rw [if_pos rfl, neg_one_mul, neg_le_neg_iff] at h
      rw [hover h]

/-- The exclusive-or of the signs is the sign of the product. -/
theorem sign_bne (s t : Bool) : (if s != t then -1 else 1 : ℚ) = (if s then -1 else 1) * (if t then -1 else 1) := by
  cases s <;> cases t <;> simp

theorem toRat_fneg (w : F64) : toRat (fneg w) = -toRat w := by
  rw [toRat, signedUnits_fneg, Int.cast_neg, neg_div, toRat]

section FiniteOperands
variable {a b : F64} (ha : isFinite a = true) (hb : isFinite b = true)
include ha hb

theorem roundsTo_fadd : RoundsTo (toRat a + toRat b) (fadd a b) := by
  rw [fadd_of_isFinite ha hb, toRat, toRat, ← add_div, ← Int.cast_add]
  generalize signedUnits a + signedUnits b = x
  unfold packSum
  split
  · next h =>
    have hround := roundsTo_pack_roundMag (fsign a && fsign b) 0 one_pos
    rw [show roundMag 0 1 = 0 by decide, Nat.cast_zero, zero_div, zero_div, mul_zero] at hround
    rwa [h, Int.cast_zero, zero_div]
  · have hround := roundsTo_pack_roundMag (decide (x < 0)) x.natAbs one_pos
    rw [Nat.cast_one, div_one, ← mul_div_assoc] at hround
    convert hround using 2
    rcases lt_or_ge x 0 with h | h
    · rw [decide_eq_true h, if_pos rfl, neg_one_mul, Nat.cast_natAbs, abs_of_neg h, Int.cast_neg, neg_neg]
    · rw [decide_eq_false h.not_gt, if_neg Bool.false_ne_true, one_mul, Nat.cast_natAbs, abs_of_nonneg h]

theorem roundsTo_fsub : RoundsTo (toRat a - toRat b) (fsub a b) := by
  rw [sub_eq_add_neg, ← toRat_fneg]
  exact roundsTo_fadd ha ((isFinite_fneg b).trans hb)

theorem roundsTo_fmul : RoundsTo (toRat a * toRat b) (fmul a b) := by
  have hround := roundsTo_pack_roundMag (fsign a != fsign b) (units a * units b) unitsPerOne_pos
  rw [← fmul_of_isFinite ha hb, sign_bne] at hround
  convert hround using 1
  rw [toRat_eq, toRat_eq]
  push_cast
  ring

theorem roundsTo_fdiv (hb0 : isZero b = false) : RoundsTo (toRat a / toRat b) (fdiv a b) := by
  have hround := roundsTo_pack_roundMag (fsign a != fsign b) (units a * unitsPerOne) (units_pos hb0)
  rw [← fdiv_of_isFinite ha hb hb0, sign_bne] at hround
  have hunits : (units b : ℚ) ≠ 0 := Nat.cast_ne_zero.2 (units_pos hb0).ne'
  convert hround using 1
  rw [toRat_eq, toRat_eq, Nat.cast_mul, mul_div_mul_comm, div_div_div_cancel_right₀ unitsPerOne_ne_zero,
    mul_div_right_comm, mul_div_cancel_right₀ _ unitsPerOne_ne_zero]
  congr 1
  cases fsign b <;> simp [div_neg]

end FiniteOperands

/-- Settles O39: each operation packs one rounding of its exact result. -/
theorem basicOperationsRoundOnce : Obligations.BasicOperationsRoundOnce := fun _ _ ha hb =>
  ⟨roundsTo_fadd ha hb, roundsTo_fsub ha hb, roundsTo_fmul ha hb, roundsTo_fdiv ha hb⟩

/-! ### The cosine -/

theorem fmag_withinUnit_le (r : F64) : fmag (withinUnit r) ≤ fmag fone := by
  unfold withinUnit
  split
  · assumption
  · exact le_rfl

/-- A cosine of a finite argument is no further from 0 than 1.0 (43_numerics R130 item 3). -/
theorem fmag_cosine_le {a : F64} (h : isFinite a = true) : fmag (cosine a) ≤ fmag fone := by
  by_cases ha : a = fzero
  · rw [ha, cosine_fzero]
  · have hcos : cosine a = withinUnit (Config.cosDraw a) := by simp [cosine, ha, isNaN_of_isFinite h, h]
    rw [hcos]
    exact fmag_withinUnit_le _

theorem isFinite_cosine {a : F64} (h : isFinite a = true) : isFinite (cosine a) = true :=
  decide_eq_true ((fmag_cosine_le h).trans_lt (by decide))

theorem abs_toRat_cosine_le {a : F64} (h : isFinite a = true) : |toRat (cosine a)| ≤ 1 := by
  rw [abs_toRat, div_le_one (Nat.cast_pos.2 unitsPerOne_pos), Nat.cast_le, ← units_fone]
  exact magUnits_strictMono.monotone (fmag_cosine_le h)

/-- The error of the cosine on the argument of frequency k, index i and dimension d. -/
noncomputable def cosineError (k i d : ℕ) : ℝ := |toReal (cosine (arg k i d)) - Real.cos (toReal (arg k i d))|

/-- The arguments of the datapath are finitely many, so the errors on them are bounded. -/
theorem bddAbove_cosineError : BddAbove {e : ℝ | ∃ k i d : ℕ, k < d ∧ i < d ∧ d ≤ 4095 ∧ e = cosineError k i d} := by
  refine (((Set.finite_Iic ((4095, 4095, 4095) : ℕ × ℕ × ℕ)).image fun p => cosineError p.1 p.2.1 p.2.2).subset
    ?_).bddAbove
  rintro e ⟨k, i, d, hk, hi, hd, rfl⟩
  exact ⟨(k, i, d), ⟨hk.le.trans hd, hi.le.trans hd, hd⟩, rfl⟩

/-- Settles O42: the three clauses are imposed on the open cosine, and the least bound of finitely many errors bounds
them. -/
theorem cosineHasItsStatedProperties : Obligations.CosineHasItsStatedProperties :=
  ⟨cosine_fzero, fun _ h => ⟨isFinite_cosine h, abs_toRat_cosine_le h⟩,
    fun k i d hk hi hd => le_csSup bddAbove_cosineError ⟨k, i, d, hk, hi, hd, rfl⟩⟩

/-! ### The factors of the transforms are finite -/

/-- Small finite values have a finite product, no greater than the product of their bounds. -/
theorem fmul_le {a b : F64} {x y : Nat} (ha : isFinite a = true) (hb : isFinite b = true)
    (hx : units a ≤ x * unitsPerOne) (hy : units b ≤ y * unitsPerOne) (hxy : x * y ≤ 2 ^ 53) :
    isFinite (fmul a b) = true ∧ units (fmul a b) ≤ x * y * unitsPerOne := by
  obtain ⟨g, hg, hval⟩ := isMagnitude_mul_unitsPerOne hxy
  have hle : roundMag (units a * units b) unitsPerOne ≤ g := by
    refine roundMag_le_of_le unitsPerOne_pos ((Nat.mul_le_mul hx hy).trans_eq ?_)
    rw [hval]
    ring
  rw [fmul_of_isFinite ha hb, isFinite_pack _ (hle.trans_lt hg), units_pack _ (hle.trans_lt hg), ← hval]
  exact ⟨rfl, magUnits_strictMono.monotone hle⟩

theorem units_cvt {n : Nat} (hn : n ≤ 2 ^ 53) : units (cvt n) ≤ n * unitsPerOne := by
  obtain ⟨-, -, hunits⟩ := cvt_spec hn
  exact hunits.le

theorem isFinite_cvt {n : Nat} (hn : n ≤ 2 ^ 53) : isFinite (cvt n) = true := by
  obtain ⟨hfin, -, -⟩ := cvt_spec hn
  exact hfin

theorem units_pi64_le : isFinite pi64 = true ∧ units pi64 ≤ 4 * unitsPerOne := by decide +kernel

theorem isFinite_arg {k i d : Nat} (hk : k < d) (hi : i < d) (hd : d ≤ 4095) : isFinite (arg k i d) = true := by
  obtain ⟨hpi, hpile⟩ := units_pi64_le
  have hk' : k ≤ 2 ^ 53 := by omega
  have hi' : 2 * i + 1 ≤ 2 ^ 53 := by omega
  obtain ⟨h1, h1le⟩ := fmul_le hpi (isFinite_cvt hk') hpile (units_cvt hk') (by omega)
  have hbound : 4 * k * (2 * i + 1) ≤ 4 * 4095 * (2 * 4095 + 1) := Nat.mul_le_mul (by omega) (by omega)
  obtain ⟨h2, -⟩ := fmul_le h1 (isFinite_cvt hi') h1le (units_cvt hi') (hbound.trans (by norm_num))
  exact (isFinite_and_fsign_fdiv_cvt h2 (by omega) (by omega)).1

/-- A division by a positive integer makes no value greater. -/
theorem units_fdiv_cvt_le {c : F64} {n : Nat} (hc : isFinite c = true) (hpos : 1 ≤ n) (hn : n ≤ 2 ^ 53) :
    units (fdiv c (cvt n)) ≤ units c := by
  have hle : roundMag (units c * unitsPerOne) (n * unitsPerOne) ≤ fmag c :=
    roundMag_le_of_le (Nat.mul_pos hpos unitsPerOne_pos) (Nat.mul_le_mul_left _ (Nat.le_mul_of_pos_left _ hpos))
  rw [fdiv_cvt hc hpos hn, units_pack _ (hle.trans_lt (fmag_lt_of_isFinite hc))]
  exact magUnits_strictMono.monotone hle

/-- The root is no greater than a magnitude whose square is no less than the squared units: that magnitude is nearer. -/
theorem magUnits_rootMag_le {x g : Nat} (hfin : rootMag x < infMag) (h : x ≤ magUnits g ^ 2) :
    magUnits (rootMag x) ≤ magUnits g := by
  have hroot : √(x : ℝ) ≤ magUnits g := Real.sqrt_le_left (Nat.cast_nonneg _) |>.2 (by exact_mod_cast h)
  have hnear := (isNearestMag_rootMag hfin g).1
  rw [abs_of_nonneg (sub_nonneg.2 hroot)] at hnear
  have hle : (magUnits (rootMag x) : ℝ) ≤ magUnits g := by linarith [le_abs_self ((magUnits (rootMag x) : ℝ) - √x)]
  exact_mod_cast hle

theorem units_of_isZero {a : F64} (h : isZero a = true) : units a = 0 := by
  rw [units, fmag_of_isZero h]
  rfl

/-- The root of a finite value that is not negative is finite and not negative, and bounded by the root of its bound. -/
theorem fsqrt_le {a : F64} {x : Nat} (hfin : isFinite a = true) (hsign : fsign a = false)
    (hle : units a ≤ x ^ 2 * unitsPerOne) (hx : x ≤ 2 ^ 53) :
    isFinite (fsqrt a) = true ∧ fsign (fsqrt a) = false ∧ units (fsqrt a) ≤ x * unitsPerOne := by
  by_cases hzero : isZero a = true
  · have hsqrt : fsqrt a = a := by rw [fsqrt, isNaN_of_isFinite hfin, if_neg Bool.false_ne_true, if_pos hzero]
    rw [hsqrt, units_of_isZero hzero]
    exact ⟨hfin, hsign, Nat.zero_le _⟩
  · obtain ⟨g, -, hval⟩ := isMagnitude_mul_unitsPerOne hx
    have hlt := rootMag_units_lt_infMag hfin
    have hsq : units a * unitsPerOne ≤ magUnits g ^ 2 := by
      rw [hval, mul_pow, sq unitsPerOne, ← mul_assoc]
      exact Nat.mul_le_mul_right _ hle
    rw [fsqrt_of_isFinite hfin (Bool.eq_false_iff.2 hzero) hsign, isFinite_pack _ hlt,
      fsign_pack _ (hlt.trans infMag_lt), units_pack _ hlt, ← hval]
    exact ⟨rfl, rfl, magUnits_rootMag_le hlt hsq⟩

/-- The normalisation of a frequency is a finite value from +0.0 to 2.0 (43_numerics R131). -/
theorem alpha_le {d : Nat} (hpos : 1 ≤ d) (hd : d ≤ 4095) (k : Nat) :
    isFinite (alpha k d) = true ∧ fsign (alpha k d) = false ∧ units (alpha k d) ≤ 2 * unitsPerOne := by
  have hroot {c : F64} (hc : isFinite c = true) (hsign : fsign c = false) (hle : units c ≤ 2 ^ 2 * unitsPerOne) :
      isFinite (fsqrt (fdiv c (cvt d))) = true ∧ fsign (fsqrt (fdiv c (cvt d))) = false ∧
        units (fsqrt (fdiv c (cvt d))) ≤ 2 * unitsPerOne := by
    have hd' : d ≤ 2 ^ 53 := hd.trans (by norm_num)
    obtain ⟨hfin, hs⟩ := isFinite_and_fsign_fdiv_cvt hc hpos hd'
    exact fsqrt_le hfin (hs.trans hsign) ((units_fdiv_cvt_le hc hpos hd').trans hle) (by norm_num)
  unfold alpha
  split
  · exact hroot (by decide) (by decide) (by decide +kernel)
  · exact hroot (by decide) (by decide) (by decide +kernel)

theorem alpha_mul_alpha {n m : Nat} (hn : 1 ≤ n ∧ n ≤ 4095) (hm : 1 ≤ m ∧ m ≤ 4095) (u v : Nat) :
    isFinite (fmul (alpha u n) (alpha v m)) = true ∧ fsign (fmul (alpha u n) (alpha v m)) = false := by
  obtain ⟨hu, husign, hule⟩ := alpha_le hn.1 hn.2 u
  obtain ⟨hv, hvsign, hvle⟩ := alpha_le hm.1 hm.2 v
  obtain ⟨hfin, -⟩ := fmul_le hu hv hule hvle (by norm_num)
  refine ⟨hfin, ?_⟩
  rw [fsign_of_qnan_or_pack (fmul_cases _ _) (isNaN_of_isFinite hfin), husign, hvsign, bne_self_eq_false]

theorem isFinite_ck {k i d : Nat} (hk : k < d) (hi : i < d) (hd : d ≤ 4095) : isFinite (ck cosine k i d) = true :=
  isFinite_cosine (isFinite_arg hk hi hd)

/-! ### Zeros through the datapath -/

theorem roundMag_zero {den : Nat} (hden : 0 < den) : roundMag 0 den = 0 := by
  have hround := roundMag_magUnits_mul (g := 0) (by decide) hden
  rwa [show magUnits 0 = 0 from rfl, zero_mul] at hround

/-- A zero times a finite value is the zero of the exclusive-or of the signs. -/
theorem fmul_of_isZero {a b : F64} (ha : isZero a = true) (hb : isFinite b = true) :
    fmul a b = pack (fsign a != fsign b) 0 := by
  rw [fmul_of_isFinite (isFinite_of_isZero ha) hb, units_of_isZero ha, zero_mul, roundMag_zero unitsPerOne_pos]

theorem isZero_fmul {a b : F64} (ha : isZero a = true) (hb : isFinite b = true) : isZero (fmul a b) = true := by
  rw [fmul_of_isZero ha hb, isZero, fmag_pack _ (by decide), beq_self_eq_true]

/-- +0.0 times a finite value that is not negative is +0.0. -/
theorem fzero_fmul {b : F64} (hb : isFinite b = true) (hsign : fsign b = false) : fmul fzero b = fzero := by
  rw [fmul_of_isZero (by decide) hb, hsign]
  decide

theorem fzero_fdiv_cvt {n : Nat} (hpos : 1 ≤ n) (hn : n ≤ 2 ^ 53) : fdiv fzero (cvt n) = fzero := by
  rw [fdiv_cvt (by decide) hpos hn, units_of_isZero (by decide), zero_mul,
    roundMag_zero (Nat.mul_pos hpos unitsPerOne_pos)]
  decide

theorem cvt_zero : cvt 0 = fzero := by
  rw [cvt, zero_mul, roundMag_zero one_pos]
  rfl

/-- The argument of frequency 0 is +0.0, by three operations on +0.0. -/
theorem arg_zero {i d : Nat} (hi : i < d) (hd : d ≤ 4095) : arg 0 i d = fzero := by
  have hodd : 2 * i + 1 ≤ 2 ^ 53 := by omega
  obtain ⟨hfin, hsign, -⟩ := cvt_spec hodd
  rw [arg, cvt_zero, fmul_comm pi64, fzero_fmul (b := pi64) (by decide) (by decide),
    fzero_fmul hfin hsign, fzero_fdiv_cvt (by omega) (by omega)]

/-- Settles O43: the argument is +0.0, where the cosine is 1.0. -/
theorem zeroFrequencyFactorIsOne : Obligations.ZeroFrequencyFactorIsOne := by
  intro i d hi hd
  rw [ck, arg_zero hi hd]
  exact ⟨rfl, cosine_fzero⟩

/-- A sum of zeros of either sign is +0.0: it begins there, and each ⊕ leaves it there. -/
theorem accumulate_of_isZero {n m : Nat} {term : Nat → Nat → F64}
    (h : ∀ x < n, ∀ y < m, isZero (term x y) = true) : accumulate n m term = fzero := by
  unfold accumulate
  refine List.foldlRecOn (motive := fun acc => acc = fzero) _ _ rfl fun row hrow x hx => ?_
  refine List.foldlRecOn (motive := fun acc => acc = fzero) _ _ hrow fun acc hacc y hy => ?_
  rw [hacc, fzero_fadd_of_isZero (h x (List.mem_range.1 hx) y (List.mem_range.1 hy))]

/-- Settles O47: every other factor is finite, so every term is a zero and the sum is +0.0, which the normalisation of
FDCT keeps. -/
theorem zeroGridTransformsToPlusZero : Obligations.ZeroGridTransformsToPlusZero := by
  intro n m S hn hm hS u hu v hv
  have halpha := alpha_mul_alpha (n := n) (m := m) (by omega) (by omega)
  constructor
  · obtain ⟨hfin, hsign⟩ := halpha u v
    rw [fdctCell, accumulate_of_isZero fun x hx y hy => ?_, fmul_comm, fzero_fmul hfin hsign]
    exact isZero_fmul (isZero_fmul (hS x hx y hy) (isFinite_ck hu hx hn)) (isFinite_ck hv hy hm)
  · refine accumulate_of_isZero fun x hx y hy => ?_
    obtain ⟨hfin, -⟩ := halpha x y
    rw [fmul_comm (fmul (alpha x n) (alpha y m))]
    exact isZero_fmul (isZero_fmul (isZero_fmul (hS x hx y hy) hfin) (isFinite_ck hx hu hn)) (isFinite_ck hy hv hm)

end Sys2Proof.Machine

/-! SUPPORT. Proofs of the family 60_exceptions: the bits of ERR that a list of causes sets, the refusal of every word
that has a cause, and the idle engine. -/

namespace Sys2Proof

/-- The causes of a word stand in the order of their bits, each at most once. -/
theorem causes_eq_append_of_mem (maxDim : Nat) (w : Word32) :
    causes maxDim w = (if Cause.op ∈ causes maxDim w then [Cause.op] else [])
      ++ (if Cause.rsv ∈ causes maxDim w then [Cause.rsv] else [])
      ++ (if Cause.dim ∈ causes maxDim w then [Cause.dim] else []) := by
  simp only [mem_causes_op, mem_causes_rsv, mem_causes_dim, ite_not, ne_eq]
  simp only [causes, Bool.or_eq_true]

end Sys2Proof

namespace Sys2Proof.Machine

/-! ### The ERR bits of a list of causes -/

theorem errWith_append (cs ds : List Cause) (e : Word32) : errWith (cs ++ ds) e = errWith ds (errWith cs e) :=
  List.foldl_append

theorem errWith_ite_singleton (p : Prop) [Decidable p] (c : Cause) (e : Word32) :
    errWith (if p then [c] else []) e = e ||| (if p then causeBit c else 0#32) := by
  split
  · rfl
  · exact BitVec.or_zero.symm

/-- Recording the causes of a word sets the bit of each that applies (60_exceptions R151, R155). -/
theorem errWith_causes (maxDim : Nat) (w : Word32) (e : Word32) :
    errWith (causes maxDim w) e = e ||| (if Cause.op ∈ causes maxDim w then causeBit .op else 0#32)
      ||| (if Cause.rsv ∈ causes maxDim w then causeBit .rsv else 0#32)
      ||| (if Cause.dim ∈ causes maxDim w then causeBit .dim else 0#32) := by
  conv_lhs => rw [causes_eq_append_of_mem]
  simp only [errWith_append, errWith_ite_singleton]

/-! ### A refused command write, and no move at all -/

/-- A word with a cause is refused with its causes, whether or not it stands for an instruction (30_encoding R78). -/
theorem issue_of_causes_ne_nil {w : Word32} {s : State} (h : causes s.config.maxDim w ≠ []) :
    issue w s = .next (refuse (causes s.config.maxDim w) s) := by
  rcases issue_cases w s with ⟨i, hi, he⟩ | ⟨-, he⟩
  · have hw : encode i = w := encode_of_decode hi
    have hwf : ¬ i.WellFormed s.config := fun hwf => h (hw ▸ causes_encode_eq_nil.2 hwf)
    rw [he, exec_of_not_wellFormed hwf, ← hw, causes_encode_of_not_wellFormed hwf]
  · exact he

/-- Settles O7: the step is the refusal of the word, and recording its causes sets their bits. -/
theorem refusedWriteChangesOnlyErrAndStatus : Obligations.RefusedWriteChangesOnlyErrAndStatus := by
  intro s v rest cs hp hcs
  have hstep : step s = .next (refuse (causes s.config.maxDim (commandOf v)) { s with pending := rest }) :=
    (step_write_of_cmd hp).trans (issue_of_causes_ne_nil (s := { s with pending := rest }) hcs)
  rw [hstep, refuse, errWith_causes]
  rfl

/-- Settles O9: with no move pending the step is the identity. -/
theorem idleEngineHoldsItsState : Obligations.IdleEngineHoldsItsState := by
  intro s hp
  rcases step_cases s with ⟨-, he⟩ | ⟨t, rest, hcons, -⟩
  · exact he
  · rw [hp] at hcons
    cases hcons

end Sys2Proof.Machine

/-! SUPPORT. Proofs of the family 70_reset_and_hazards: where a command, a host move and a step stop, and the reset
event. -/

namespace Sys2Proof.Machine

/-! ### Where a command stops -/

/-- A command stops only at a cell of its source window that is `UNDEF` (70 R172). -/
theorem exec_fault {i : Instr} {s : State} {f : Fault} (h : exec i s = .fault f) :
    ∃ r c, f = .undefSource (sourceOf i) r c ∧ r < i.rows.toNat ∧ c < i.cols.toNat ∧
      s.cell (sourceOf i) r c = none := by
  rcases exec_cases i s with ⟨-, hx⟩ | ⟨-, rc, hrc, hx⟩ | ⟨-, -, hx⟩ <;> rw [hx] at h <;> cases h
  exact ⟨rc.1, rc.2, rfl, firstUndef_eq_some hrc⟩

/-- A legal command over an `UNDEF` cell stops: it is not refused, and it does not complete. -/
theorem exec_fault_of_undef {i : Instr} {s : State} (hwf : i.WellFormed s.config) {r c : Nat} (hr : r < i.rows.toNat)
    (hc : c < i.cols.toNat) (hundef : s.cell (sourceOf i) r c = none) : ∃ f, exec i s = .fault f := by
  rcases exec_cases i s with ⟨hnot, -⟩ | ⟨-, rc, -, hx⟩ | ⟨-, hdef, -⟩
  · exact absurd hwf hnot
  · exact ⟨_, hx⟩
  · obtain ⟨v, hv⟩ := firstUndef_eq_none.1 hdef r hr c hc
    cases hundef.symm.trans hv

/-- Settles O14: the command's fault names an `UNDEF` cell of its window, and any such cell makes it fault. -/
theorem undefSourceCellIsAFault : Obligations.UndefSourceCellIsAFault := by
  intro i s hwf
  refine ⟨⟨fun ⟨f, hf⟩ => ?_, fun ⟨r, c, hr, hc, hundef⟩ => exec_fault_of_undef hwf hr hc hundef⟩, fun f => exec_fault⟩
  obtain ⟨r, c, -, hcell⟩ := exec_fault hf
  exact ⟨r, c, hcell⟩

/-! ### Where a step stops -/

/-- The outcomes over a memory that stop, if at all, only at the use of an `UNDEF` cell: by a command (70 R172) or by a
host read (20_memory R55). -/
inductive StopsOnlyAtUndef (mem : Memory) : Out → Prop
  | goesOn (t : State) : StopsOnlyAtUndef mem (.next t)
  | usesUndef {b : Bank} {r c : Nat} (h : mem.read b r c = none) : StopsOnlyAtUndef mem (.fault (.undefSource b r c))
  | readsUndef {b : Bank} {r c : Nat} (h : mem.read b r c = none) : StopsOnlyAtUndef mem (.fault (.undefRead b r c))

theorem exec_stopsOnlyAtUndef (i : Instr) (s : State) : StopsOnlyAtUndef s.mem (exec i s) := by
  rcases exec_cases i s with ⟨-, hx⟩ | ⟨-, rc, hrc, hx⟩ | ⟨-, -, hx⟩ <;> rw [hx]
  · exact .goesOn _
  · exact .usesUndef (firstUndef_eq_some hrc).2.2
  · exact .goesOn _

theorem issue_stopsOnlyAtUndef (w : Word32) (s : State) : StopsOnlyAtUndef s.mem (issue w s) := by
  rcases issue_cases w s with ⟨i, -, he⟩ | ⟨-, he⟩ <;> rw [he]
  · exact exec_stopsOnlyAtUndef i s
  · exact .goesOn _

theorem hostRead_stopsOnlyAtUndef (a : Addr) (s : State) : StopsOnlyAtUndef s.mem (hostRead a s) := by
  rcases hostRead_cases a s with
    ⟨v, -, he⟩ | ⟨b, r, c, v, -, -, he⟩ | ⟨b, r, c, -, hundef, he⟩ | ⟨r, c, -, he⟩ | ⟨-, he⟩ <;> rw [he]
  case inr.inr.inl => exact .readsUndef hundef
  all_goals exact .goesOn _

theorem hostWrite_stopsOnlyAtUndef (a : Addr) (v : Word64) (s : State) : StopsOnlyAtUndef s.mem (hostWrite a v s) := by
  rcases hostWrite_cases a v s with ⟨-, he⟩ | ⟨r, -, -, he⟩ | ⟨b, r, c, -, he⟩ | ⟨r, c, -, he⟩ | ⟨-, he⟩ <;> rw [he]
  case inl => exact issue_stopsOnlyAtUndef _ s
  all_goals exact .goesOn _

theorem transact_stopsOnlyAtUndef (m : Transaction) (s : State) : StopsOnlyAtUndef s.mem (transact m s) := by
  cases m with
  | hrd a => exact hostRead_stopsOnlyAtUndef a s
  | hwr a v => exact hostWrite_stopsOnlyAtUndef a v s
  | reset => exact .goesOn _

/-- Taking the move off the host's list leaves the memory alone, so the step stops where its move does. -/
theorem step_stopsOnlyAtUndef (s : State) : StopsOnlyAtUndef s.mem (step s) := by
  rcases step_cases s with ⟨-, he⟩ | ⟨m, rest, -, he⟩ <;> rw [he]
  · exact .goesOn s
  · exact transact_stopsOnlyAtUndef m { s with pending := rest }

/-- Settles O37: a step goes on or stops at an `UNDEF` cell, and a refusal of the model is neither. -/
theorem onlyUndefCellsStopARun : Obligations.OnlyUndefCellsStopARun := by
  intro s
  have hstop := step_stopsOnlyAtUndef s
  refine ⟨fun f hf => ?_, fun q hq => ?_⟩
  · rw [hf] at hstop
    cases hstop with
    | usesUndef hundef => exact ⟨_, _, _, .inl rfl, hundef⟩
    | readsUndef hundef => exact ⟨_, _, _, .inr rfl, hundef⟩
  · rw [hq] at hstop
    cases hstop

/-! ### The reset event -/

/-- Settles O28: the step is the reset event, which puts the reset state of the same constants in place. -/
theorem resetEventRestoresResetState : Obligations.ResetEventRestoresResetState := by
  intro s rest hp
  exact ⟨resetEvent { s with pending := rest }, step_cons hp, rfl, rfl, rfl, resetOf_cell s.config, rfl, rfl, rfl⟩

end Sys2Proof.Machine
